-- ==== Sys2Proof/Word.lean ====
section
/-! DEFINITION. The word type of the model: the byte (BYTE_BITS = 8 of 00_scope.md R4; an input beat, a memory cell
and a "byte" of the source are all 8 bits, 20_memory.md R41). -/

namespace Sys2Proof

/-- A byte; bit 7 is the most significant, bit 0 the least (R5). -/
abbrev Byte := BitVec 8

end Sys2Proof
end

