-- ==== Sys2Proof/Config.lean ====
section
/-! DEFINITION. The implementation parameters of 00_scope.md R4 and the free value the spec leaves open.

All parameters of R4 but one are constants; as in the spec's own pseudocode they stand in the definitions as numbers:
HEADER_LEN 17, ETH_PREFIX_LEN 14, SOC_BODY_LEN 11 + W (so a Soc frame needs 28 + W bytes), PRQ_PREFIX_LEN 5, PRQ_FIXED_LEN
7 (so `size` is complete at 24), PAYLOAD_CAP 256, PRQ_ENC_BODY_LEN 263, MAX_CONSUMED 280, POS_BITS 9. -/

namespace Sys2Proof

/-- NETTIME_BYTES (written W), the one parameter the spec leaves open: "a model takes `NETTIME_BYTES` as an argument"
with 1 ≤ W ≤ 8 and default 1 (R4, D8). It is held as W − 1, so that every value of the type is in range.
DESIGN CHOICE (log 3). -/
structure Config where
  netTimeExtra : Fin 8
deriving DecidableEq, Repr

/-- W, the width in bytes of the Soc field `netTime`. -/
def Config.netTimeBytes (c : Config) : Nat := c.netTimeExtra.val + 1

/-- The spec's default, W = 1 (D8). -/
def Config.standard : Config := { netTimeExtra := 0 }

/-- What payload cell `a` holds at power-up and until it is first written: "256 independent draws, fixed until
overwritten by a payload Beat" (U8, R20). FREE VALUE: nothing in Lean can evaluate it, and a claim about it holds
whatever it is. DESIGN CHOICE in its form (log 4). -/
opaque Config.powerUpByte : Nat → Byte

end Sys2Proof
end

