-- ==== Sys2Proof/Syntax.lean ====
section
/-! DEFINITION. The instructions (one constructor per row of spec/opcode_table.json) and the value types of the
function level (41_envelope_header.md R120). -/

namespace Sys2Proof

/-- The value of `classify` on a tag byte (40_registry_classify.md R90): eight recognised classes and Unknown. -/
inductive MessageType where
  | nonPowerlink | soc | preq | pres | soa | asnd | amni | aInv | unknown
deriving DecidableEq, Repr

/-- An instruction of the block: a frame, named by its opcode, the tag byte at frame offset 14 (R8, R66). One
constructor per row of the tag map; the eight UNKNOWN rows partition the 248 other tags by match and mask (R67), and a
row of several tags carries the tag's free bits, which no meaning reads (log 13). The frame's operands (its other bytes) are not part of the opcode:
they arrive on the stream, one a beat, while the instruction runs (log 1). Every value is well-formed: the fields are
exactly the bits the row leaves open. -/
inductive Instr where
  /-- tag 0x00 (R91) -/
  | nonpowerlink
  /-- tag 0x01 (R130) -/
  | soc
  /-- tag 0x03 (R140) -/
  | preq
  /-- tag 0x04 (R141) -/
  | pres
  /-- tag 0x05 (R92) -/
  | soa
  /-- tag 0x06 (R93) -/
  | asnd
  /-- tag 0x07 (R94) -/
  | amni
  /-- tag 0x0D (R95) -/
  | ainv
  /-- tag 0x02 (R96) -/
  | unknown1
  /-- tags 0x08 to 0x0B (R96) -/
  | unknown2 (low : BitVec 2)
  /-- tag 0x0C (R96) -/
  | unknown3
  /-- tags 0x0E and 0x0F (R96) -/
  | unknown4 (low : BitVec 1)
  /-- tags 0x10 to 0x1F (R96) -/
  | unknown5 (low : BitVec 4)
  /-- tags 0x20 to 0x3F (R96) -/
  | unknown6 (low : BitVec 5)
  /-- tags 0x40 to 0x7F (R96) -/
  | unknown7 (low : BitVec 6)
  /-- tags 0x80 to 0xFF (R96) -/
  | unknown8 (low : BitVec 7)
deriving DecidableEq, Repr

/-- The class of an instruction's tag. -/
def Instr.cls : Instr → MessageType
  | .nonpowerlink => .nonPowerlink
  | .soc => .soc
  | .preq => .preq
  | .pres => .pres
  | .soa => .soa
  | .asnd => .asnd
  | .amni => .amni
  | .ainv => .aInv
  | .unknown1 => .unknown
  | .unknown2 _ => .unknown
  | .unknown3 => .unknown
  | .unknown4 _ => .unknown
  | .unknown5 _ => .unknown
  | .unknown6 _ => .unknown
  | .unknown7 _ => .unknown
  | .unknown8 _ => .unknown

/-- The four error outcomes (60_exceptions.md R200). -/
inductive ErrorKind where
  | truncatedBuffer | unknownMessageType | sizeOutOfRange | noBodyLayout
deriving DecidableEq, Repr

/-- The decoded envelope header (R120, format H of R61). MAC fields are byte arrays in wire order (D18). -/
structure Header where
  dstMac : Vector Byte 6
  srcMac : Vector Byte 6
  etherType : BitVec 16
  messageType : Byte
  cls : MessageType
  dstNodeId : Byte
  srcNodeId : Byte
deriving DecidableEq, Repr

/-- The decoded Soc body (R120, format S of R62). `netTime` is 8·W bits wide, held in 64 (log 3). -/
structure SocBody where
  reserved1 : Byte
  flag1 : Byte
  flag2 : Byte
  netTime : BitVec 64
  relativeTime : BitVec 64
deriving DecidableEq, Repr

/-- The decoded Preq or Pres body (R120, formats Q and P of R63, R64); `first` is reserved1 (Preq) or nmtStatus (Pres),
and `payload` is the list of exactly `size` bytes. -/
structure PrqBody where
  first : Byte
  flag1 : Byte
  flag2 : Byte
  pdoVersion : Byte
  reserved2 : Byte
  size : BitVec 16
  payload : List Byte
deriving DecidableEq, Repr

/-- The tagged body: three constructors, no shared storage (R120). -/
inductive Body where
  | soc (b : SocBody)
  | preq (b : PrqBody)
  | pres (b : PrqBody)
deriving DecidableEq, Repr

/-- A decoded frame (R120). -/
structure Envelope where
  header : Header
  body : Body
  consumed : Nat
deriving DecidableEq, Repr

/-- The result of decoding one frame (R120): the two non-fatal errors deliver the header, the two fatal ones carry no
value. -/
inductive Result where
  | ok (e : Envelope)
  | unknownMessageType (h : Header)
  | noBodyLayout (h : Header)
  | truncatedBuffer
  | sizeOutOfRange
deriving DecidableEq, Repr

/-- Equality of envelopes, `e ≈ e'` (46_reference_encoder.md R197): headers and bodies, not `consumed`. -/
def Envelope.same (e e' : Envelope) : Prop := e.header = e'.header ∧ e.body = e'.body

end Sys2Proof
end

