-- ==== Sys2Proof/WellFormed.lean ====
section
/-! DEFINITION. Well-formed envelopes (46_reference_encoder.md R196). An Instr needs no check: its fields are exactly
the free bits of its row. -/

namespace Sys2Proof

/-- The class, the raw tag and the body constructor agree: Soc 0x01, Preq 0x03, Pres 0x04. -/
def Envelope.tagMatchesBody (e : Envelope) : Bool :=
  match e.body with
  | .soc _ => e.header.cls == .soc && e.header.messageType == 0x01
  | .preq _ => e.header.cls == .preq && e.header.messageType == 0x03
  | .pres _ => e.header.cls == .pres && e.header.messageType == 0x04

/-- `size ≤ 256`. -/
def PrqBody.sizeInRange (b : PrqBody) : Bool := decide (b.size.toNat ≤ 256)

/-- The payload has exactly `size` bytes. -/
def PrqBody.payloadComplete (b : PrqBody) : Bool := b.payload.length == b.size.toNat

/-- `netTime` is a value of 8·W bits. DEDUCED from the width R120 gives the field (log 3). -/
def SocBody.netTimeFits (c : Config) (b : SocBody) : Bool := decide (b.netTime.toNat < 2 ^ (8 * c.netTimeBytes))

/-- The body meets its own constraints. -/
def Body.wf (c : Config) : Body → Bool
  | .soc b => b.netTimeFits c
  | .preq b => b.sizeInRange && b.payloadComplete
  | .pres b => b.sizeInRange && b.payloadComplete

/-- R196: the envelopes `Encode` is defined on. -/
def Envelope.wf (c : Config) (e : Envelope) : Bool := e.tagMatchesBody && e.body.wf c

end Sys2Proof
end

