-- ==== Sys2Proof/Decode.lean ====
section
/-! DEFINITION. Decoding and encoding, at both levels of the spec: the tag byte and its row of the tag map
(30_encoding.md R66, R67; 40_registry_classify.md R90), and the pure functions `Decode` (41_envelope_header.md R110) and
`Encode` (46_reference_encoder.md R191) on whole frames, over the byte-order utilities of 20_memory.md R43. -/

namespace Sys2Proof

/-! ### The tag -/

/-- R90: the total function `classify`. -/
def classify (t : Byte) : MessageType :=
  if t = 0x00 then .nonPowerlink
  else if t = 0x01 then .soc
  else if t = 0x03 then .preq
  else if t = 0x04 then .pres
  else if t = 0x05 then .soa
  else if t = 0x06 then .asnd
  else if t = 0x07 then .amni
  else if t = 0x0D then .aInv
  else .unknown

/-- The row of the tag map a tag byte selects, by exact match of all eight bits (R66), each UNKNOWN row by its match and
mask (R67). Total: every one of the 256 values has its row. -/
def decodeTag (t : Byte) : Instr :=
  if t = 0x00 then .nonpowerlink
  else if t = 0x01 then .soc
  else if t = 0x03 then .preq
  else if t = 0x04 then .pres
  else if t = 0x05 then .soa
  else if t = 0x06 then .asnd
  else if t = 0x07 then .amni
  else if t = 0x0D then .ainv
  else if t = 0x02 then .unknown1
  else if t &&& 0xFC = 0x08 then .unknown2 (t.extractLsb' 0 2)
  else if t = 0x0C then .unknown3
  else if t &&& 0xFE = 0x0E then .unknown4 (t.extractLsb' 0 1)
  else if t &&& 0xF0 = 0x10 then .unknown5 (t.extractLsb' 0 4)
  else if t &&& 0xE0 = 0x20 then .unknown6 (t.extractLsb' 0 5)
  else if t &&& 0xC0 = 0x40 then .unknown7 (t.extractLsb' 0 6)
  else .unknown8 (t.extractLsb' 0 7)

/-- The tag byte of an instruction: its row's fixed bits above the row's free bits. -/
def encodeTag : Instr → Byte
  | .nonpowerlink => 0x00
  | .soc => 0x01
  | .preq => 0x03
  | .pres => 0x04
  | .soa => 0x05
  | .asnd => 0x06
  | .amni => 0x07
  | .ainv => 0x0D
  | .unknown1 => 0x02
  | .unknown2 low => 0b000010#6 ++ low
  | .unknown3 => 0x0C
  | .unknown4 low => 0b0000111#7 ++ low
  | .unknown5 low => 0b0001#4 ++ low
  | .unknown6 low => 0b001#3 ++ low
  | .unknown7 low => 0b01#2 ++ low
  | .unknown8 low => 0b1#1 ++ low

/-- The rows of spec/opcode_table.json as (match, mask), in the table's order. -/
def tagRows : List (Byte × Byte) :=
  [(0x00, 0xFF), (0x01, 0xFF), (0x03, 0xFF), (0x04, 0xFF), (0x05, 0xFF), (0x06, 0xFF), (0x07, 0xFF), (0x0D, 0xFF)] ++
  [(0x02, 0xFF), (0x08, 0xFC), (0x0C, 0xFF), (0x0E, 0xFE), (0x10, 0xF0), (0x20, 0xE0), (0x40, 0xC0), (0x80, 0x80)]

/-- Where an instruction's row stands in `tagRows`. -/
def rowIndex : Instr → Nat
  | .nonpowerlink => 0
  | .soc => 1
  | .preq => 2
  | .pres => 3
  | .soa => 4
  | .asnd => 5
  | .amni => 6
  | .ainv => 7
  | .unknown1 => 8
  | .unknown2 _ => 9
  | .unknown3 => 10
  | .unknown4 _ => 11
  | .unknown5 _ => 12
  | .unknown6 _ => 13
  | .unknown7 _ => 14
  | .unknown8 _ => 15

/-! ### Reading and writing bytes (R6, R42, R43) -/

/-- `B[k]`. The caller has established `k < |B|` (R42); past the end it is 0, a use that "does not occur" (log 19). -/
def byteAt (B : List Byte) (k : Nat) : Byte := B.getD k 0

/-- `MemRead(addr, n)`: the bytes `B[addr .. addr+n-1]`, lowest offset first (R42). -/
def memRead (B : List Byte) (addr n : Nat) : List Byte := (B.drop addr).take n

/-- `LE(b_0 … b_{m-1}) = Σ b_k · 2^(8k)`. -/
def leValue : List Byte → Nat
  | [] => 0
  | b :: bs => b.toNat + 256 * leValue bs

/-- `BE(b_0 … b_{m-1}) = Σ b_k · 2^(8(m-1-k))`. -/
def beValue : List Byte → Nat
  | [] => 0
  | b :: bs => b.toNat * 256 ^ bs.length + beValue bs

def readLE16 (B : List Byte) (o : Nat) : BitVec 16 := BitVec.ofNat 16 (leValue (memRead B o 2))
def readLE32 (B : List Byte) (o : Nat) : BitVec 32 := BitVec.ofNat 32 (leValue (memRead B o 4))
def readLE64 (B : List Byte) (o : Nat) : BitVec 64 := BitVec.ofNat 64 (leValue (memRead B o 8))
def readBE16 (B : List Byte) (o : Nat) : BitVec 16 := BitVec.ofNat 16 (beValue (memRead B o 2))

/-- The `m` bytes of `v`, least significant first. -/
def leBytes : Nat → Nat → List Byte
  | 0, _ => []
  | m + 1, v => BitVec.ofNat 8 v :: leBytes m (v / 256)

/-- The `m` bytes of `v`, most significant first. -/
def beBytes (m v : Nat) : List Byte := (leBytes m v).reverse

/-- The buffer with `new` laid over it from offset `o` on. The caller guarantees that the range lies in the buffer (R42,
R43). Where it does not, the spec gives the write no meaning, and the answer here is the model's choice: the list grows,
and from an offset past its end `new` lands at its end (DESIGN CHOICE, log 19). -/
def writeAt (B : List Byte) (o : Nat) (new : List Byte) : List Byte := B.take o ++ new ++ B.drop (o + new.length)

def writeLE16 (v : BitVec 16) (B : List Byte) (o : Nat) : List Byte := writeAt B o (leBytes 2 v.toNat)
def writeLE32 (v : BitVec 32) (B : List Byte) (o : Nat) : List Byte := writeAt B o (leBytes 4 v.toNat)
def writeLE64 (v : BitVec 64) (B : List Byte) (o : Nat) : List Byte := writeAt B o (leBytes 8 v.toNat)
def writeBE16 (v : BitVec 16) (B : List Byte) (o : Nat) : List Byte := writeAt B o (beBytes 2 v.toNat)

/-- Six bytes in wire order, "raw bytes, no reordering" (R112, R113). -/
def macAt (B : List Byte) (o : Nat) : Vector Byte 6 :=
  #v[byteAt B o, byteAt B (o + 1), byteAt B (o + 2), byteAt B (o + 3), byteAt B (o + 4), byteAt B (o + 5)]

/-! ### The instruction decoder -/

/-- The instruction a frame is: its tag at offset 14, once 17 bytes are present. A shorter frame is rejected by name,
its tag, if any, unclassified (R97, R111). -/
def decodeInstr (B : List Byte) : Except ErrorKind Instr :=
  if B.length < 17 then .error .truncatedBuffer else .ok (decodeTag (byteAt B 14))

/-- The frame of the largest examined length (280 bytes) whose bytes from offset 14 on are the low `nbits` bits of `w`,
first byte lowest, and whose other bytes are zero. -/
def tableFrame (nbits w : Nat) : List Byte := List.replicate 14 0 ++ leBytes 266 (w % 2 ^ nbits)

/-- The words of an instruction as a frame: its tag at offset 14, every operand byte zero. -/
def encodeInstr (i : Instr) : List Byte := tableFrame 8 (encodeTag i).toNat

/-- What the decoder reads from a row's bits, numbered as spec/opcode_table.json numbers them: bit 0 is the least
significant bit of the tag byte, bits 15..8 are the byte at offset 15, and so on. -/
def decodeTableWord (nbits w : Nat) : Option Instr := (decodeInstr (tableFrame nbits w)).toOption

/-! ### The function level: `Decode` -/

/-- The header fields (R112 to R117) and the class (R90). Nothing is filtered (R121). -/
def decodeHeader (B : List Byte) : Header :=
  { dstMac := macAt B 0
    srcMac := macAt B 6
    etherType := readBE16 B 12
    messageType := byteAt B 14
    cls := classify (byteAt B 14)
    dstNodeId := byteAt B 15
    srcNodeId := byteAt B 16 }

/-- `DecodeSoc(B, o)` (42_soc.md R130): the body and `bytesConsumed`. -/
def decodeSoc (c : Config) (B : List Byte) (o : Nat) : Except ErrorKind (SocBody × Nat) :=
  if B.length - o < 11 + c.netTimeBytes then .error .truncatedBuffer
  else .ok
    ({ reserved1 := byteAt B o
       flag1 := byteAt B (o + 1)
       flag2 := byteAt B (o + 2)
       netTime := BitVec.ofNat 64 (leValue (memRead B (o + 3) c.netTimeBytes))
       relativeTime := readLE64 B (o + 3 + c.netTimeBytes) }, 11 + c.netTimeBytes)

/-- `DecodePrq(B, o)` (43_preq_pres.md R140 to R148), for both Preq and Pres; the three tests stand in the order of
R147. -/
def decodePrq (B : List Byte) (o : Nat) : Except ErrorKind (PrqBody × Nat) :=
  if B.length - o < 7 then .error .truncatedBuffer
  else if 256 < (readLE16 B (o + 5)).toNat then .error .sizeOutOfRange
  else if B.length - (o + 7) < (readLE16 B (o + 5)).toNat then .error .truncatedBuffer
  else .ok
    ({ first := byteAt B o
       flag1 := byteAt B (o + 1)
       flag2 := byteAt B (o + 2)
       pdoVersion := byteAt B (o + 3)
       reserved2 := byteAt B (o + 4)
       size := readLE16 B (o + 5)
       payload := memRead B (o + 7) (readLE16 B (o + 5)).toNat }, 7 + (readLE16 B (o + 5)).toNat)

/-- The result of a frame whose decode failed with `k` after the header `h` was read: the non-fatal kinds deliver `h`,
the fatal ones nothing (R119, R205). -/
def Result.ofError (h : Header) : ErrorKind → Result
  | .truncatedBuffer => .truncatedBuffer
  | .unknownMessageType => .unknownMessageType h
  | .sizeOutOfRange => .sizeOutOfRange
  | .noBodyLayout => .noBodyLayout h

/-- The result of a frame from its body decoder's answer (R119, R122). -/
def Result.ofBody (h : Header) {β : Type} (mk : β → Body) : Except ErrorKind (β × Nat) → Result
  | .ok (b, n) => .ok { header := h, body := mk b, consumed := 17 + n }
  | .error k => .ofError h k

/-- `Decode(B)` (R110): total on every byte list. -/
def decodeFrame (c : Config) (B : List Byte) : Result :=
  if B.length < 17 then .truncatedBuffer
  else
    match classify (byteAt B 14) with
    | .unknown => .ofError (decodeHeader B) .unknownMessageType
    | .nonPowerlink => .ofError (decodeHeader B) .noBodyLayout
    | .soa => .ofError (decodeHeader B) .noBodyLayout
    | .asnd => .ofError (decodeHeader B) .noBodyLayout
    | .amni => .ofError (decodeHeader B) .noBodyLayout
    | .aInv => .ofError (decodeHeader B) .noBodyLayout
    | .soc => .ofBody (decodeHeader B) .soc (decodeSoc c B 17)
    | .preq => .ofBody (decodeHeader B) .preq (decodePrq B 17)
    | .pres => .ofBody (decodeHeader B) .pres (decodePrq B 17)

/-! ### The reference encoder (46_reference_encoder.md; not hardware, R190) -/

/-- The 17 header bytes in declared order (R191). -/
def encodeHeader (h : Header) : List Byte :=
  h.dstMac.toList ++ h.srcMac.toList ++ beBytes 2 h.etherType.toNat ++ [h.messageType, h.dstNodeId, h.srcNodeId]

/-- `EncodeSoc` (R192): 11 + W bytes. -/
def encodeSoc (c : Config) (b : SocBody) : List Byte :=
  [b.reserved1, b.flag1, b.flag2] ++ leBytes c.netTimeBytes b.netTime.toNat ++ leBytes 8 b.relativeTime.toNat

/-- `EncodePrq` (R193): the fixed part, the payload, and zero fill up to the 256 bytes of capacity. -/
def encodePrq (b : PrqBody) : List Byte :=
  [b.first, b.flag1, b.flag2, b.pdoVersion, b.reserved2] ++ leBytes 2 b.size.toNat ++ b.payload ++
    List.replicate (256 - b.size.toNat) 0

def encodeBody (c : Config) : Body → List Byte
  | .soc b => encodeSoc c b
  | .preq b => encodePrq b
  | .pres b => encodePrq b

/-- `Encode(e)` (R191), meant for well-formed envelopes only. What it answers on an ill-formed one is nothing the spec
speaks of (DESIGN CHOICE, log 17). -/
def encodeFrame (c : Config) (e : Envelope) : List Byte := encodeHeader e.header ++ encodeBody c e.body

end Sys2Proof
end

