-- ==== Sys2Proof/Machine/State.lean ====
section
/-! DEFINITION. The state of the block (10_state.md R10: "there is no other state"), its reset value (R25), the input
wires of R26, and the two reason types of a step. -/

namespace Sys2Proof.Machine

/-- `phase` (R15): PARSE stores each accepted byte by offset, DRAIN discards bytes until the frame boundary. -/
inductive Phase where
  | parse | drain
deriving DecidableEq, Repr

/-- The input wires sampled at one rising edge of `clk` (R26). `plRaddr` takes no part in the step; it selects what
`pl_rdata` shows (R50). -/
structure Wires where
  rst : Bool
  inValid : Bool
  inData : Byte
  inLast : Bool
  resReady : Bool
  plRaddr : BitVec 8
deriving DecidableEq, Repr

/-- No reset, no byte offered, no result taken. -/
def Wires.idle : Wires :=
  { rst := false, inValid := false, inData := 0, inLast := false, resReady := false, plRaddr := 0 }

/-- The wires that offer byte `d`, with the end-of-frame mark `l` (event `b d` or `b d L` of R72). -/
def Wires.offer (d : Byte) (l : Bool) : Wires := { Wires.idle with inValid := true, inData := d, inLast := l }

/-- The wires of a consumer that takes the result (event `T` of R72). -/
def Wires.takes : Wires := { Wires.idle with resReady := true }

/-- The wires of a reset edge (event `RST` of R72). -/
def Wires.resets : Wires := { Wires.idle with rst := true }

/-- What happens at one clock edge (R160). -/
inductive Event where
  | reset
  | take
  | beat (d : Byte) (l : Bool)
  | hold
deriving DecidableEq, Repr

/-- Cells of the payload buffer that have been written since power-up, as (index, byte) pairs with rising indices. A
cell not listed still holds its power-up draw, `Config.powerUpByte` (R20, U8). -/
abbrev Memory := List Host.Cell

/-- A reason to stop with a fault. The spec gives none: the error outcomes are results the block posts and goes on from
("none of which stops the block", R9; R200, R207), so the type is empty and no step faults (log 9). Nobody raises one;
safe. -/
inductive Fault where
deriving DecidableEq, Repr

/-- A reason to refuse an instruction. -/
inductive Refusal where
  /-- Raised by an arm of `exec` whose instruction has no meaning in the model yet; no arm does. Safe: the run stops where
  the hardware goes on. -/
  | notModelled (mnemonic : String)
deriving DecidableEq, Repr

/-- The fourteen field holding registers, `x[name]` of R6 and R11. -/
structure Fields where
  /-- R11 row 1; index 0 is first on the wire -/
  dstMac : Vector Byte 6
  /-- R11 row 2 -/
  srcMac : Vector Byte 6
  /-- R11 row 3 -/
  etherType : BitVec 16
  /-- R11 row 4 -/
  msgType : Byte
  /-- R11 row 5 -/
  dstNode : Byte
  /-- R11 row 6 -/
  srcNode : Byte
  /-- R11 row 7; reserved1 for Soc and Preq, nmt_status for Pres (R12) -/
  body0 : Byte
  /-- R11 row 8 -/
  flag1 : Byte
  /-- R11 row 9 -/
  flag2 : Byte
  /-- R11 row 10, 8·W bits wide: the bits from 8·W up are always zero (log 3) -/
  netTime : BitVec 64
  /-- R11 row 11 -/
  relTime : BitVec 64
  /-- R11 row 12 -/
  pdoVersion : Byte
  /-- R11 row 13 -/
  reserved2 : Byte
  /-- R11 row 14 -/
  size : BitVec 16
deriving DecidableEq, Repr

/-- The fourteen registers after reset (R25): all zero. -/
def Fields.zero : Fields :=
  { dstMac := #v[0, 0, 0, 0, 0, 0]
    srcMac := #v[0, 0, 0, 0, 0, 0]
    etherType := 0
    msgType := 0
    dstNode := 0
    srcNode := 0
    body0 := 0
    flag1 := 0
    flag2 := 0
    netTime := 0
    relTime := 0
    pdoVersion := 0
    reserved2 := 0
    size := 0 }

/-- The state record. The first six fields are the spec's (R10); `cfg` and `inputs` are the model's own. -/
structure State where
  /-- the field holding registers (R11) -/
  x : Fields
  /-- the 256-byte payload buffer (R20) -/
  payload : Memory
  /-- R14: the offset counter -/
  pos : BitVec 9
  /-- R15 -/
  phase : Phase
  /-- R16: the outcome code -/
  st : BitVec 3
  /-- R17: a result is pending -/
  resValid : Bool
  /-- the model's own: the parameter NETTIME_BYTES (R4, D8); no step changes it (log 3) -/
  cfg : Config
  /-- the model's own: the input wires at the coming clock edges, next edge first; when it is empty the wires are idle
  (log 2) -/
  inputs : List Wires
deriving DecidableEq, Repr

/-- Right after reset (R25, R230): every register zero, PARSE, no result pending, offset 0. The payload buffer lists
nothing: every cell holds its power-up draw (R20; log 5). DESIGN CHOICE for the two fields of the model's own: W = 1, no
input scheduled (log 11). -/
def State.reset : State :=
  { x := Fields.zero
    payload := []
    pos := 0
    phase := .parse
    st := 0
    resValid := false
    cfg := Config.standard
    inputs := [] }

end Sys2Proof.Machine
end

