-- ==== Sys2Proof/Machine/Flags.lean ====
section
/-! DEFINITION. The status codes and the class code (10_state.md R16, R18; 00_scope.md R4; D5, D6). -/

namespace Sys2Proof.Machine

/-- The 3-bit `status` code of `OK`. -/
def okCode : BitVec 3 := 0

/-- The 3-bit `status` code of an error outcome (R16, R200). -/
def errorCode : ErrorKind → BitVec 3
  | .truncatedBuffer => 1
  | .unknownMessageType => 2
  | .sizeOutOfRange => 3
  | .noBodyLayout => 4

/-- The 4-bit code of a class: the low nibble of the tag of a recognised class, 0xF for Unknown (R18). -/
def classCode : MessageType → BitVec 4
  | .nonPowerlink => 0x0
  | .soc => 0x1
  | .preq => 0x3
  | .pres => 0x4
  | .soa => 0x5
  | .asnd => 0x6
  | .amni => 0x7
  | .aInv => 0xD
  | .unknown => 0xF

end Sys2Proof.Machine
end

