-- ==== Sys2Proof/Machine/Ops.lean ====
section
/-! DEFINITION. The named operations over the state: the payload buffer, the event of a clock edge, raising an error and
returning from one, posting a result, and the one shape of a clock edge that every instruction's meaning fills in
(45_stream_machine.md R160 to R172; 60_exceptions.md R207, R208; 70_reset_and_hazards.md R230). -/

namespace Sys2Proof.Machine

/-! ### The payload buffer -/

/-- The canonical form: indices strictly rising, all of the 256 cells. An unlisted cell has no value of its own, so no
entry can equal it. -/
abbrev Memory.wf (m : Memory) : Prop := m.Pairwise (fun x y => x.1 < y.1) ∧ ∀ x ∈ m, x.1 < 256

/-- The byte last written to cell `a`, if it was written since power-up. -/
def Memory.read : Memory → Nat → Option Byte
  | [], _ => none
  | (b, v) :: m, a => if a = b then some v else Memory.read m a

/-- `MemWrite(a, 1, v)` (R49), keeping the list in canonical form. -/
def Memory.write : Memory → Nat → Byte → Memory
  | [], a, v => [(a, v)]
  | (b, w) :: m, a, v =>
    if a < b then (a, v) :: (b, w) :: m
    else if a = b then (a, v) :: m
    else (b, w) :: Memory.write m a v

/-- What cell `a` holds: the byte last written, or the power-up draw (R20, U8). The ONE definition of what an unlisted
cell reads as. -/
def Memory.cell (m : Memory) (a : Nat) : Byte := (m.read a).getD (Config.powerUpByte a)

/-! ### The event of an edge -/

/-- The wires at the coming edge. -/
def State.wires (s : State) : Wires := s.inputs.headD Wires.idle

/-- Exactly one of four events, chosen by the wires and the state just before the edge, in the priority of R160. -/
def State.event (s : State) : Event :=
  if s.wires.rst then .reset
  else if s.resValid && s.wires.resReady then .take
  else if !s.resValid && s.wires.inValid then .beat s.wires.inData s.wires.inLast
  else .hold

/-! ### Reset, errors and the result handshake -/

/-- Reset (R230): every register takes its reset value; the payload cells are not changed (log 5). -/
def State.applyReset (s : State) : State :=
  { State.reset with payload := s.payload, cfg := s.cfg, inputs := s.inputs }

/-- Raising an error outcome (R207): truncation, raised by the frame boundary, writes the code and leaves the phase; the
others write the code and enter DRAIN. Nothing is saved. -/
def State.raise (k : ErrorKind) (s : State) : State :=
  match k with
  | .truncatedBuffer => { s with st := errorCode k }
  | .unknownMessageType => { s with st := errorCode k, phase := .drain }
  | .sizeOutOfRange => { s with st := errorCode k, phase := .drain }
  | .noBodyLayout => { s with st := errorCode k, phase := .drain }

/-- A decode that has all its bytes (R165 to R167): `st <- 0`, `phase <- DRAIN`. -/
def State.complete (s : State) : State := { s with st := okCode, phase := .drain }

/-- Take (R170), the block's return (R208): the registers of the sequencer are re-initialised, fields and payload
untouched. -/
def State.takeResult (s : State) : State :=
  { s with resValid := false, pos := 0, phase := .parse, st := 0 }

/-- Advancing (R163). In every reachable state `pos ≤ 279` here and nothing wraps (R180); log 6. -/
def State.advance (s : State) : State := { s with pos := s.pos + 1 }

/-- The frame boundary (R169): the result is posted, as TruncatedBuffer if the phase is still PARSE. -/
def State.boundary (s : State) : State :=
  match s.phase with
  | .parse => { s.raise .truncatedBuffer with resValid := true }
  | .drain => { s with resValid := true }

/-! ### The shape of a beat and of an edge -/

/-- Beat(d, l) (R162 to R169) under an instruction whose format stores by `store` and whose decode is settled by
`settle`, which sees the stored registers and the advanced `pos`. -/
def State.beat (store : Byte → State → State) (settle : State → State) (d : Byte) (l : Bool) (s : State) : State :=
  let s1 := match s.phase with
    | .parse => settle (store d s).advance
    | .drain => s
  if l then s1.boundary else s1

/-- The wires of this edge are behind. -/
def State.nextEdge (s : State) : State := { s with inputs := s.inputs.tail }

/-- One clock edge (R160) while the instruction whose beats act by `onBeat` is in the parser. -/
def State.atEdge (onBeat : Byte → Bool → State → State) (s : State) : State :=
  match s.event with
  | .reset => s.applyReset.nextEdge
  | .take => s.takeResult.nextEdge
  | .beat d l => (onBeat d l s).nextEdge
  | .hold => s.nextEdge

end Sys2Proof.Machine
end

