-- ==== Sys2Proof/Machine/Operands.lean ====
section
/-! DEFINITION. The endian multiplexer (20_memory.md R45) and the store tables of the formats H, S, Q and P
(30_encoding.md R61 to R64; 45_stream_machine.md R162): which byte of a frame goes where. -/

namespace Sys2Proof.Machine

/-- The order select of a field. -/
inductive Order where
  | little | big
deriving DecidableEq, Repr

/-- `lane(e, m, k)`: the byte lane of the byte at position `k` of an `m`-byte field (R45). -/
def lane : Order → Nat → Nat → Nat
  | .little, _, k => k
  | .big, m, k => m - 1 - k

/-- `x[r][8j+7 : 8j] <- d`: one byte lane is written, the other bits keep their value (R6). -/
def setLane {n : Nat} (r : BitVec n) (j : Nat) (d : Byte) : BitVec n :=
  (r &&& ~~~((0xFF#8).setWidth n <<< (8 * j))) ||| (d.setWidth n <<< (8 * j))

/-- Format H (R61, R162 rows 0 to 16), the same for every class: the byte accepted at offset `p`. -/
def headerStore (p : Nat) (d : Byte) (x : Fields) : Fields :=
  if p < 6 then { x with dstMac := x.dstMac.setIfInBounds p d }
  else if p < 12 then { x with srcMac := x.srcMac.setIfInBounds (p - 6) d }
  else if p < 14 then { x with etherType := setLane x.etherType (lane .big 2 (p - 12)) d }
  else if p = 14 then { x with msgType := d }
  else if p = 15 then { x with dstNode := d }
  else if p = 16 then { x with srcNode := d }
  else x

/-- The first three body bytes, at the same offsets in the formats S, Q and P (R60, R162 rows 17 to 19). -/
def bodyStartStore (p : Nat) (d : Byte) (x : Fields) : Fields :=
  if p = 17 then { x with body0 := d }
  else if p = 18 then { x with flag1 := d }
  else if p = 19 then { x with flag2 := d }
  else x

/-- The rest of format S (R62, R162 rows 20 to 27 + W). An offset past the table stores nothing (log 7). -/
def socTimesStore (W p : Nat) (d : Byte) (x : Fields) : Fields :=
  if p < 20 + W then { x with netTime := setLane x.netTime (lane .little W (p - 20)) d }
  else if p < 28 + W then { x with relTime := setLane x.relTime (lane .little 8 (p - (20 + W))) d }
  else x

/-- The rest of the fixed part of formats Q and P (R63, R64, R162 rows 20 to 23). -/
def prqFixedStore (p : Nat) (d : Byte) (x : Fields) : Fields :=
  if p = 20 then { x with pdoVersion := d }
  else if p = 21 then { x with reserved2 := d }
  else if p < 24 then { x with size := setLane x.size (lane .little 2 (p - 22)) d }
  else x

/-- The registers of a Soc frame: formats H and S. -/
def socStore (W p : Nat) (d : Byte) (x : Fields) : Fields :=
  if p < 17 then headerStore p d x else if p < 20 then bodyStartStore p d x else socTimesStore W p d x

/-- The registers of a Preq or Pres frame: formats H and Q or P, byte for byte the same. -/
def prqStore (p : Nat) (d : Byte) (x : Fields) : Fields :=
  if p < 17 then headerStore p d x else if p < 20 then bodyStartStore p d x else prqFixedStore p d x

/-- The payload cell a byte accepted at offset `p` of a Preq or Pres frame goes to (R49, R162 row 24 to 279). An offset
past the table stores nothing (log 7). -/
def payloadIndex (p : Nat) : Option Nat := if 24 ≤ p ∧ p < 280 then some (p - 24) else none

/-- The payload buffer after the byte at offset `p` of a Preq or Pres frame. -/
def payloadStore (p : Nat) (d : Byte) (m : Memory) : Memory :=
  match payloadIndex p with
  | some a => m.write a d
  | none => m

/-- Storing under a class with no body decoder. -/
def storeHeader (d : Byte) (s : State) : State := { s with x := headerStore s.pos.toNat d s.x }

/-- Storing under Soc. -/
def storeSoc (d : Byte) (s : State) : State := { s with x := socStore s.cfg.netTimeBytes s.pos.toNat d s.x }

/-- Storing under Preq or Pres. -/
def storePrq (d : Byte) (s : State) : State :=
  { s with x := prqStore s.pos.toNat d s.x, payload := payloadStore s.pos.toNat d s.payload }

end Sys2Proof.Machine
end

