-- ==== Sys2Proof/Machine/Prq.lean ====
section
/-! DEFINITION. The Preq and Pres frames (43_preq_pres.md R140, R141), byte for byte the same layout. -/

namespace Sys2Proof.Machine

/-- The size test at `q = 24` (R166) and payload completion at `q = 24 + size` (R166, R167). -/
def settlePrq (s : State) : State :=
  if s.pos.toNat = 24 ∧ 256 < s.x.size.toNat then s.raise .sizeOutOfRange
  else if s.pos.toNat = 24 + s.x.size.toNat then s.complete
  else s

/-- R140, tag 0x03: one edge of a Preq frame, whose first body byte is `reserved1`. -/
def execPreq (s : State) : Host.Outcome State Fault Refusal := .next (s.atEdge (State.beat storePrq settlePrq))

/-- R141, tag 0x04: one edge of a Pres frame, whose first body byte is `nmtStatus`. -/
def execPres (s : State) : Host.Outcome State Fault Refusal := .next (s.atEdge (State.beat storePrq settlePrq))

end Sys2Proof.Machine
end

