-- ==== Sys2Proof/Machine/Soc.lean ====
section
/-! DEFINITION. The Soc frame (42_soc.md R130). -/

namespace Sys2Proof.Machine

/-- Soc completion (R165): at `q = 28 + W` the last byte of `rel_time` has been stored. -/
def settleSoc (s : State) : State :=
  if s.pos.toNat = 28 + s.cfg.netTimeBytes then s.complete else s

/-- R130, tag 0x01: one edge of a Soc frame. No field value is checked. -/
def execSoc (s : State) : Host.Outcome State Fault Refusal := .next (s.atEdge (State.beat storeSoc settleSoc))

end Sys2Proof.Machine
end

