-- ==== Sys2Proof/Machine/Stop.lean ====
section
/-! DEFINITION. The frames no body decoder takes (40_registry_classify.md R91 to R96): NonPowerlink, Soa, Asnd, Amni,
AInv end in `NoBodyLayout`, the Unknown tags in `UnknownMessageType`. Format H only; the outcome is raised when `pos`
reaches 17 (R164). -/

namespace Sys2Proof.Machine

/-- The dispatch of a class with no body decoder: at `q = 17` the outcome `k` is raised (R164). -/
def settleStop (k : ErrorKind) (s : State) : State := if s.pos.toNat = 17 then s.raise k else s

/-- One edge of a frame of a class with no body decoder. -/
def stopEdge (k : ErrorKind) (s : State) : State := s.atEdge (State.beat storeHeader (settleStop k))

/-- R91, tag 0x00. -/
def execNonpowerlink (s : State) : Host.Outcome State Fault Refusal := .next (stopEdge .noBodyLayout s)

/-- R92, tag 0x05. -/
def execSoa (s : State) : Host.Outcome State Fault Refusal := .next (stopEdge .noBodyLayout s)

/-- R93, tag 0x06. -/
def execAsnd (s : State) : Host.Outcome State Fault Refusal := .next (stopEdge .noBodyLayout s)

/-- R94, tag 0x07. -/
def execAmni (s : State) : Host.Outcome State Fault Refusal := .next (stopEdge .noBodyLayout s)

/-- R95, tag 0x0D. -/
def execAinv (s : State) : Host.Outcome State Fault Refusal := .next (stopEdge .noBodyLayout s)

/-- R96, tag 0x02. -/
def execUnknown1 (s : State) : Host.Outcome State Fault Refusal := .next (stopEdge .unknownMessageType s)

/-- R96, tags 0x08 to 0x0B. -/
def execUnknown2 (s : State) : Host.Outcome State Fault Refusal := .next (stopEdge .unknownMessageType s)

/-- R96, tag 0x0C. -/
def execUnknown3 (s : State) : Host.Outcome State Fault Refusal := .next (stopEdge .unknownMessageType s)

/-- R96, tags 0x0E and 0x0F. -/
def execUnknown4 (s : State) : Host.Outcome State Fault Refusal := .next (stopEdge .unknownMessageType s)

/-- R96, tags 0x10 to 0x1F. -/
def execUnknown5 (s : State) : Host.Outcome State Fault Refusal := .next (stopEdge .unknownMessageType s)

/-- R96, tags 0x20 to 0x3F. -/
def execUnknown6 (s : State) : Host.Outcome State Fault Refusal := .next (stopEdge .unknownMessageType s)

/-- R96, tags 0x40 to 0x7F. -/
def execUnknown7 (s : State) : Host.Outcome State Fault Refusal := .next (stopEdge .unknownMessageType s)

/-- R96, tags 0x80 to 0xFF. -/
def execUnknown8 (s : State) : Host.Outcome State Fault Refusal := .next (stopEdge .unknownMessageType s)

end Sys2Proof.Machine
end

