-- ==== Sys2Proof/Machine/Dispatch.lean ====
section
/-! DEFINITION. One arm per row of spec/opcode_table.json. -/

namespace Sys2Proof.Machine

def exec (i : Instr) (s : State) : Host.Outcome State Fault Refusal :=
  match i with
  | .nonpowerlink => Sys2Proof.Machine.execNonpowerlink s
  | .soc => Sys2Proof.Machine.execSoc s
  | .preq => Sys2Proof.Machine.execPreq s
  | .pres => Sys2Proof.Machine.execPres s
  | .soa => Sys2Proof.Machine.execSoa s
  | .asnd => Sys2Proof.Machine.execAsnd s
  | .amni => Sys2Proof.Machine.execAmni s
  | .ainv => Sys2Proof.Machine.execAinv s
  | .unknown1 => Sys2Proof.Machine.execUnknown1 s
  | .unknown2 _ => Sys2Proof.Machine.execUnknown2 s
  | .unknown3 => Sys2Proof.Machine.execUnknown3 s
  | .unknown4 _ => Sys2Proof.Machine.execUnknown4 s
  | .unknown5 _ => Sys2Proof.Machine.execUnknown5 s
  | .unknown6 _ => Sys2Proof.Machine.execUnknown6 s
  | .unknown7 _ => Sys2Proof.Machine.execUnknown7 s
  | .unknown8 _ => Sys2Proof.Machine.execUnknown8 s

end Sys2Proof.Machine
end

