-- ==== Sys2Proof/Machine/Fetch.lean ====
section
/-! DEFINITION. Which instruction the parser is running (20_memory.md R54): the tag byte is read from the stream once, at
offset 14, and the class that routes the frame's bytes is that of `msg_type` from then on. -/

namespace Sys2Proof.Machine

/-- The tag in effect at this edge: the byte being accepted at offset 14, else the register `msg_type`. It is the value
of `msg_type` after the beat's store, the one R164 classifies. Up to offset 13 it is the tag of an earlier frame, and
no effect depends on it (note under R172). -/
def State.tagInEffect (s : State) : Byte :=
  match s.event with
  | .beat d _ => if s.phase = .parse ∧ s.pos.toNat = 14 then d else s.x.msgType
  | .reset => s.x.msgType
  | .take => s.x.msgType
  | .hold => s.x.msgType

/-- The instruction the parser is running. -/
def State.fetch (s : State) : Instr := decodeTag s.tagInEffect

/-- The beats of a frame: one per byte, the last with the end-of-frame mark (`FRAME(f)` of R72). -/
def frameBeats : List Byte → List Wires
  | [] => []
  | [b] => [Wires.offer b true]
  | b :: bs => Wires.offer b false :: frameBeats bs

/-- The parser with the first 14 bytes of frame `B` accepted and the rest of it about to arrive, tag first. -/
def State.atTagOf (B : List Byte) (s : State) : State :=
  { s with
    x := { s.x with dstMac := macAt B 0, srcMac := macAt B 6, etherType := readBE16 B 12 }
    pos := 14
    phase := .parse
    st := 0
    resValid := false
    inputs := frameBeats (B.drop 14) }

end Sys2Proof.Machine
end

