-- ==== Sys2Proof/Machine/Step.lean ====
section
/-! DEFINITION. One step is one rising edge of `clk` (45_stream_machine.md R172; R9 item 7). -/

namespace Sys2Proof.Machine

/-- The instruction in the parser runs for one edge. -/
def step (s : State) : Host.Outcome State Fault Refusal := exec s.fetch s

/-- The state whose next step fetches (R54: at offset 14) and runs the instruction whose bits are `w`: the 14 zero bytes
before its tag accepted, its tag the next byte of the stream, zero bytes after it (log 10). -/
def State.withFetchWord (s : State) (nbits w : Nat) : State := s.atTagOf (tableFrame nbits w)

end Sys2Proof.Machine
end

