-- ==== Sys2Proof/Machine/ClockStep.lean ====
section
/-! DEFINITION. The spec's own next-state function, 45_stream_machine.md R172, with the store table of R162, transcribed
line by line. The machine does not run it: `step` runs the instruction's own meaning, and a statement says that the two
are the same function. -/

namespace Sys2Proof.Machine

/-- The table of R162, by offset and class. -/
def storeAtOffset (p : Nat) (c : MessageType) (d : Byte) (s : State) : State :=
  let W := s.cfg.netTimeBytes
  if p ≤ 5 then { s with x.dstMac := s.x.dstMac.setIfInBounds p d }
  else if p ≤ 11 then { s with x.srcMac := s.x.srcMac.setIfInBounds (p - 6) d }
  else if p = 12 then { s with x.etherType := setLane s.x.etherType 1 d }
  else if p = 13 then { s with x.etherType := setLane s.x.etherType 0 d }
  else if p = 14 then { s with x.msgType := d }
  else if p = 15 then { s with x.dstNode := d }
  else if p = 16 then { s with x.srcNode := d }
  else if c = .soc then
    if p = 17 then { s with x.body0 := d }
    else if p = 18 then { s with x.flag1 := d }
    else if p = 19 then { s with x.flag2 := d }
    else if p ≤ 19 + W then { s with x.netTime := setLane s.x.netTime (p - 20) d }
    else if p ≤ 27 + W then { s with x.relTime := setLane s.x.relTime (p - 20 - W) d }
    else s
  else if c = .preq ∨ c = .pres then
    if p = 17 then { s with x.body0 := d }
    else if p = 18 then { s with x.flag1 := d }
    else if p = 19 then { s with x.flag2 := d }
    else if p = 20 then { s with x.pdoVersion := d }
    else if p = 21 then { s with x.reserved2 := d }
    else if p = 22 then { s with x.size := setLane s.x.size 0 d }
    else if p = 23 then { s with x.size := setLane s.x.size 1 d }
    else if p ≤ 279 then { s with payload := s.payload.write (p - 24) d }
    else s
  else s

/-- The decision lines of R172, on the state after the store, `q` the new value of `pos`. -/
def decideAt (q : Nat) (c : MessageType) (s : State) : State :=
  if q = 17 then
    if c = .unknown then { s with st := 2, phase := .drain }
    else if ¬(c = .soc ∨ c = .preq ∨ c = .pres) then { s with st := 4, phase := .drain }
    else s
  else if c = .soc ∧ q = 28 + s.cfg.netTimeBytes then { s with st := 0, phase := .drain }
  else if (c = .preq ∨ c = .pres) ∧ q = 24 ∧ 256 < s.x.size.toNat then { s with st := 3, phase := .drain }
  else if (c = .preq ∨ c = .pres) ∧ 24 ≤ q ∧ q = 24 + s.x.size.toNat then { s with st := 0, phase := .drain }
  else s

/-- `Step(s, rst, in_valid, in_data, in_last, res_ready)` of R172. -/
def clockStep (s : State) (rst inValid : Bool) (inData : Byte) (inLast resReady : Bool) : State :=
  if rst then
    { State.reset with payload := s.payload, cfg := s.cfg, inputs := s.inputs }
  else if s.resValid then
    if resReady then { s with resValid := false, pos := 0, phase := .parse, st := 0 } else s
  else if ¬inValid then s
  else
    let s1 :=
      if s.phase = .parse then
        let stored := { storeAtOffset s.pos.toNat (classify s.x.msgType) inData s with pos := s.pos + 1 }
        decideAt stored.pos.toNat (classify stored.x.msgType) stored
      else s
    if inLast then
      if s1.phase = .parse then { s1 with st := 1, resValid := true } else { s1 with resValid := true }
    else s1

end Sys2Proof.Machine
end

