-- ==== Sys2Proof/Machine/Outputs.lean ====
section
/-! DEFINITION. The outputs as functions of the state (10_state.md R18, R19, R23, R26; 45_stream_machine.md R174) and the
posted result as the consumer may read it (41_envelope_header.md R120). -/

namespace Sys2Proof.Machine

/-- `cls` (R18): at all times the code of the class of `msg_type`. -/
def State.clsPort (s : State) : BitVec 4 := classCode (classify s.x.msgType)

/-- `in_ready` (R161), with `rst` the wire at the coming edge. -/
def State.inReady (s : State) : Bool := !s.resValid && !s.wires.rst

/-- `pl_rdata` (R50): the cell `pl_raddr` selects, asynchronously: here, as the wires of the coming edge have it (log 16). -/
def State.plRdata (s : State) : Byte := s.payload.cell s.wires.plRaddr.toNat

/-- A MAC array on its 48-bit port: byte `k` on bits `[8k+7 : 8k]` (R26, D18). -/
def macPort (m : Vector Byte 6) : BitVec 48 := m[5] ++ m[4] ++ m[3] ++ m[2] ++ m[1] ++ m[0]

/-- The output ports of R26. `netTime` carries its 8·W bits zero-extended (log 3). -/
structure Outputs where
  inReady : Bool
  resValid : Bool
  status : BitVec 3
  cls : BitVec 4
  consumed : BitVec 9
  dstMac : BitVec 48
  srcMac : BitVec 48
  etherType : BitVec 16
  msgType : Byte
  dstNode : Byte
  srcNode : Byte
  body0 : Byte
  flag1 : Byte
  flag2 : Byte
  netTime : BitVec 64
  relTime : BitVec 64
  pdoVersion : Byte
  reserved2 : Byte
  size : BitVec 16
  plRdata : Byte
deriving DecidableEq, Repr

/-- Every output as a function of the state and the wires of the coming edge (R174). -/
def State.outputs (s : State) : Outputs :=
  { inReady := s.inReady
    resValid := s.resValid
    status := s.st
    cls := s.clsPort
    consumed := s.pos
    dstMac := macPort s.x.dstMac
    srcMac := macPort s.x.srcMac
    etherType := s.x.etherType
    msgType := s.x.msgType
    dstNode := s.x.dstNode
    srcNode := s.x.srcNode
    body0 := s.x.body0
    flag1 := s.x.flag1
    flag2 := s.x.flag2
    netTime := s.x.netTime
    relTime := s.x.relTime
    pdoVersion := s.x.pdoVersion
    reserved2 := s.x.reserved2
    size := s.x.size
    plRdata := s.plRdata }

/-! ### Validity (R23) -/

/-- The columns of R23's table. -/
inductive FieldGroup where
  | statusAndConsumed | header | bodyStart | socTimes | prqFixed | payloadBelowSize | payloadBeyondSize
deriving DecidableEq, Repr

/-- R23's table: which outputs hold the frame's decoded value, by posted status code and class. -/
def validFor (st : BitVec 3) (c : MessageType) (g : FieldGroup) : Bool :=
  match g with
  | .statusAndConsumed => true
  | .header => st == okCode || st == errorCode .unknownMessageType || st == errorCode .noBodyLayout
  | .bodyStart => st == okCode
  | .socTimes => st == okCode && c == .soc
  | .prqFixed => st == okCode && (c == .preq || c == .pres)
  | .payloadBelowSize => st == okCode && (c == .preq || c == .pres)
  | .payloadBeyondSize => false

/-- R23: nothing but `in_ready` and `res_valid` is valid while no result is pending. -/
def State.validOutput (s : State) (g : FieldGroup) : Bool := s.resValid && validFor s.st (classify s.x.msgType) g

/-- Two states show the same values on the outputs of a column of R23. -/
def State.agreeOn (s t : State) : FieldGroup → Prop
  | .statusAndConsumed => s.st = t.st ∧ s.pos = t.pos
  | .header => s.x.dstMac = t.x.dstMac ∧ s.x.srcMac = t.x.srcMac ∧ s.x.etherType = t.x.etherType ∧ s.x.msgType = t.x.msgType ∧
      s.x.dstNode = t.x.dstNode ∧ s.x.srcNode = t.x.srcNode
  | .bodyStart => s.x.body0 = t.x.body0 ∧ s.x.flag1 = t.x.flag1 ∧ s.x.flag2 = t.x.flag2
  | .socTimes => s.x.netTime = t.x.netTime ∧ s.x.relTime = t.x.relTime
  | .prqFixed => s.x.pdoVersion = t.x.pdoVersion ∧ s.x.reserved2 = t.x.reserved2 ∧ s.x.size = t.x.size
  | .payloadBelowSize => ∀ i, i < s.x.size.toNat → s.payload.cell i = t.payload.cell i
  | .payloadBeyondSize => ∀ i, s.x.size.toNat ≤ i → i < 256 → s.payload.cell i = t.payload.cell i

/-! ### The posted result (the correspondence of R120) -/

/-- The header the registers show. -/
def State.headerView (s : State) : Header :=
  { dstMac := s.x.dstMac
    srcMac := s.x.srcMac
    etherType := s.x.etherType
    messageType := s.x.msgType
    cls := classify s.x.msgType
    dstNodeId := s.x.dstNode
    srcNodeId := s.x.srcNode }

/-- The Soc body the registers show. -/
def State.socView (s : State) : SocBody :=
  { reserved1 := s.x.body0, flag1 := s.x.flag1, flag2 := s.x.flag2, netTime := s.x.netTime, relativeTime := s.x.relTime }

/-- The first `n` payload cells, as the read port delivers them. -/
def Memory.view (m : Memory) (n : Nat) : List Byte := (List.range n).map m.cell

/-- The Preq or Pres body the registers and the payload buffer show: exactly `size` payload bytes (R145). -/
def State.prqView (s : State) : PrqBody :=
  { first := s.x.body0
    flag1 := s.x.flag1
    flag2 := s.x.flag2
    pdoVersion := s.x.pdoVersion
    reserved2 := s.x.reserved2
    size := s.x.size
    payload := s.payload.view s.x.size.toNat }

/-- The body of an OK result, by class; the other classes have none. -/
def State.bodyView (s : State) : Option Body :=
  match classify s.x.msgType with
  | .soc => some (.soc s.socView)
  | .preq => some (.preq s.prqView)
  | .pres => some (.pres s.prqView)
  | .nonPowerlink => none
  | .soa => none
  | .asnd => none
  | .amni => none
  | .aInv => none
  | .unknown => none

/-- The result pending at the outputs, read through valid fields only (R23, R120); `none` while none is pending, and for
the code and class pairs the block never posts (U11; DESIGN CHOICE, log 14). -/
def State.result (s : State) : Option Result :=
  if s.resValid then
    if s.st = okCode then
      s.bodyView.map fun b => .ok { header := s.headerView, body := b, consumed := s.pos.toNat }
    else if s.st = errorCode .truncatedBuffer then some .truncatedBuffer
    else if s.st = errorCode .unknownMessageType then some (.unknownMessageType s.headerView)
    else if s.st = errorCode .sizeOutOfRange then some .sizeOutOfRange
    else if s.st = errorCode .noBodyLayout then some (.noBodyLayout s.headerView)
    else none
  else none

/-- The `status` code of a result (R120, R200). -/
def resultStatus : Result → BitVec 3
  | .ok _ => okCode
  | .unknownMessageType _ => errorCode .unknownMessageType
  | .noBodyLayout _ => errorCode .noBodyLayout
  | .truncatedBuffer => errorCode .truncatedBuffer
  | .sizeOutOfRange => errorCode .sizeOutOfRange

/-- `consumed` as it accompanies the result of a frame of `n` bytes (R19, R200). -/
def resultConsumed (n : Nat) : Result → Nat
  | .ok e => e.consumed
  | .unknownMessageType _ => 17
  | .noBodyLayout _ => 17
  | .truncatedBuffer => n
  | .sizeOutOfRange => 24

end Sys2Proof.Machine
end

