-- ==== Sys2Proof/Safety.lean ====
section
/-! DEFINITION. The terms claims are made in: where a frame starts, what it is for wires to deliver a frame, the duties of
the neighbours (45_stream_machine.md R175, R176), and the invariant of the machine. -/

namespace Sys2Proof.Machine

/-- The parser waits for offset 0 of a frame: after Reset or Take, whatever registers and payload hold (R173). -/
abbrev State.atFrameStart (s : State) : Prop := s.resValid = false ∧ s.pos = 0 ∧ s.phase = .parse

/-- `net_time` is a value of its 8·W bits (R11 row 10, log 3). -/
abbrev State.netTimeInWidth (s : State) : Prop := s.x.netTime.toNat < 2 ^ (8 * s.cfg.netTimeBytes)

/-- The bytes of a frame with their end-of-frame marks: on exactly the last byte (R175 (b)). -/
def marked : List Byte → List (Byte × Bool)
  | [] => []
  | [b] => [(b, true)]
  | b :: bs => (b, false) :: marked bs

/-- The bytes the wires offer, in order, with their marks. -/
def offered (ins : List Wires) : List (Byte × Bool) :=
  (ins.filter fun w => w.inValid).map fun w => (w.inData, w.inLast)

/-- The wires `ins` deliver the frame `B` and end with its last byte: no reset, exactly the frame's bytes in order with
`in_last` on the last, any number of idle edges before and between them (R173, R175). `res_ready` and `pl_raddr` are
free. -/
abbrev Delivers (ins : List Wires) (B : List Byte) : Prop :=
  (∀ w ∈ ins, w.rst = false) ∧ offered ins = marked B ∧ (ins.getLast?.map fun w => w.inValid) = some true

/-- The registers as the first 17 bytes of `B` leave them (R61, R112 to R117). -/
def Fields.withHeaderOf (B : List Byte) (x : Fields) : Fields :=
  { x with
    dstMac := macAt B 0
    srcMac := macAt B 6
    etherType := readBE16 B 12
    msgType := byteAt B 14
    dstNode := byteAt B 15
    srcNode := byteAt B 16 }

/-- The duty of R175 (a) and R237 at the coming edge: a byte offered and not accepted is offered again at the edge after
it. No step asks for it (log 15). -/
abbrev State.offerHeld (s : State) : Prop :=
  s.wires.inValid = true → s.inReady = false →
    (s.inputs.tail.headD Wires.idle).inValid = true ∧
    (s.inputs.tail.headD Wires.idle).inData = s.wires.inData ∧
    (s.inputs.tail.headD Wires.idle).inLast = s.wires.inLast

/-- The consumer's duty of R176 (a): it reads column `g` of R23 only when it is valid. -/
abbrev State.mayRead (s : State) (g : FieldGroup) : Prop := s.validOutput g = true

/-- A class whose body the block decodes as a Preq or Pres (R118). -/
abbrev isPrq (c : MessageType) : Prop := c = .preq ∨ c = .pres

/-- A recognised class with no body decoder (R91 to R95). -/
abbrev isNoBody (c : MessageType) : Prop :=
  c = .nonPowerlink ∨ c = .soa ∨ c = .asnd ∨ c = .amni ∨ c = .aInv

/-- In PARSE the offset has not reached the end of what the frame's class needs (R14, R70). -/
abbrev State.needsMore (s : State) : Prop :=
  s.pos.toNat < 17 ∨
  (classify s.x.msgType = .soc ∧ s.pos.toNat < 28 + s.cfg.netTimeBytes) ∨
  (isPrq (classify s.x.msgType) ∧
    (s.pos.toNat < 24 ∨ s.x.size.toNat ≤ 256 ∧ s.pos.toNat < 24 + s.x.size.toNat))

/-- In DRAIN the code, the class and the frozen offset fit together (R16, R19, R200). -/
abbrev State.decided (s : State) : Prop :=
  (s.st = 0 ∧ classify s.x.msgType = .soc ∧ s.pos.toNat = 28 + s.cfg.netTimeBytes) ∨
  (s.st = 0 ∧ isPrq (classify s.x.msgType) ∧ s.x.size.toNat ≤ 256 ∧ s.pos.toNat = 24 + s.x.size.toNat) ∨
  (s.st = 2 ∧ classify s.x.msgType = .unknown ∧ s.pos.toNat = 17) ∨
  (s.st = 3 ∧ isPrq (classify s.x.msgType) ∧ 256 < s.x.size.toNat ∧ s.pos.toNat = 24) ∨
  (s.st = 4 ∧ isNoBody (classify s.x.msgType) ∧ s.pos.toNat = 17)

/-- The invariant: the payload list is canonical; `net_time` stays in its width; while parsing, `st` is 0 until the
boundary writes 1 (R16, R207) and the frame still needs bytes; while draining, the outcome is one the spec gives; a
posted result is of a frame of at least one byte (R178). -/
structure State.Inv (s : State) : Prop where
  payload_wf : s.payload.wf
  net_time : s.netTimeInWidth
  parsing : s.phase = .parse → s.st = (if s.resValid then 1 else 0) ∧ s.needsMore
  draining : s.phase = .drain → s.decided
  posted : s.resValid = true → s.pos ≠ 0

end Sys2Proof.Machine
end

