-- ==== Sys2Proof/Certificates/Slice0/Obligations.lean ====
section
/-! DEFINITION. The statements for the provers. Each docstring names the rules of spec/ it formalises. -/

open Sys2Proof Sys2Proof.Machine

/-! ### Tags, bytes and frames -/

/-- R90, with the Unknown set it lists; in the machine, the class of the register `msg_type`, visible as `cls`. -/
def Obligations.ClassifyFollowsTheTagMap : Prop :=
  (∀ s : State, s.outputs.cls = classCode (classify s.x.msgType)) ∧
  ∀ t : Byte,
    (classify t = .nonPowerlink ↔ t = 0x00) ∧ (classify t = .soc ↔ t = 0x01) ∧
    (classify t = .preq ↔ t = 0x03) ∧ (classify t = .pres ↔ t = 0x04) ∧
    (classify t = .soa ↔ t = 0x05) ∧ (classify t = .asnd ↔ t = 0x06) ∧
    (classify t = .amni ↔ t = 0x07) ∧ (classify t = .aInv ↔ t = 0x0D) ∧
    (classify t = .unknown ↔ t = 0x02 ∨ (0x08 ≤ t ∧ t ≤ 0x0C) ∨ 0x0E ≤ t)

/-- R67: the sixteen rows partition the 256 tags, the decoder answers the row that matches, and nothing but the tag of a
frame with a whole header takes part. -/
def Obligations.EveryTagSelectsExactlyOneRow : Prop :=
  (∀ t : Byte, ∀ k : Fin 16,
    (t &&& (tagRows.getD k.val (0, 0)).2 = (tagRows.getD k.val (0, 0)).1 ↔ k.val = rowIndex (decodeTag t))) ∧
  tagRows.length = 16 ∧
  (∀ t : Byte, (decodeTag t).cls = classify t) ∧
  (∀ B B' : List Byte, 17 ≤ B.length → 17 ≤ B'.length → byteAt B 14 = byteAt B' 14 → decodeInstr B = decodeInstr B')

/-- Sanity: one word of every row of spec/opcode_table.json, written out from its match and mask. -/
def Obligations.TableWordsDecodeToTheirRows : Prop :=
  decodeTableWord 8 0x00 = some .nonpowerlink ∧ decodeTableWord 8 0x01 = some .soc ∧
  decodeTableWord 8 0x03 = some .preq ∧ decodeTableWord 8 0x04 = some .pres ∧
  decodeTableWord 8 0x05 = some .soa ∧ decodeTableWord 8 0x06 = some .asnd ∧
  decodeTableWord 8 0x07 = some .amni ∧ decodeTableWord 8 0x0D = some .ainv ∧
  decodeTableWord 8 0x02 = some .unknown1 ∧ decodeTableWord 8 0x0A = some (.unknown2 2) ∧
  decodeTableWord 8 0x0C = some .unknown3 ∧ decodeTableWord 8 0x0F = some (.unknown4 1) ∧
  decodeTableWord 8 0x1E = some (.unknown5 0xE) ∧ decodeTableWord 8 0x21 = some (.unknown6 1) ∧
  decodeTableWord 8 0x7F = some (.unknown7 0x3F) ∧ decodeTableWord 8 0xFE = some (.unknown8 0x7E)

/-- Decoding and encoding agree on the opcode, both ways, and through whole frames (R66, R67, R97). -/
def Obligations.TagDecodeAndEncodeAgree : Prop :=
  (∀ i : Instr, decodeTag (encodeTag i) = i) ∧ (∀ t : Byte, encodeTag (decodeTag t) = t) ∧
  (∀ i : Instr, decodeInstr (encodeInstr i) = .ok i) ∧
  (∀ i : Instr, decodeTableWord 8 (encodeTag i).toNat = some i)

/-- R43: what each utility computes, and that the writes are the inverses of the reads. -/
def Obligations.ByteOrderUtilities : Prop :=
  (∀ bs : List Byte, leValue bs = ∑ k ∈ Finset.range bs.length, (byteAt bs k).toNat * 2 ^ (8 * k)) ∧
  (∀ bs : List Byte, beValue bs =
    ∑ k ∈ Finset.range bs.length, (byteAt bs k).toNat * 2 ^ (8 * (bs.length - 1 - k))) ∧
  (∀ (B : List Byte) (o : Nat), o + 2 ≤ B.length →
    (readLE16 B o).toNat = (byteAt B o).toNat + 256 * (byteAt B (o + 1)).toNat ∧
    (readBE16 B o).toNat = 256 * (byteAt B o).toNat + (byteAt B (o + 1)).toNat) ∧
  (∀ (B : List Byte) (o : Nat), o + 4 ≤ B.length →
    (readLE32 B o).toNat = ∑ k ∈ Finset.range 4, (byteAt B (o + k)).toNat * 2 ^ (8 * k)) ∧
  (∀ (B : List Byte) (o : Nat), o + 8 ≤ B.length →
    (readLE64 B o).toNat = ∑ k ∈ Finset.range 8, (byteAt B (o + k)).toNat * 2 ^ (8 * k)) ∧
  (∀ (B : List Byte) (o : Nat) (v : BitVec 16), o + 2 ≤ B.length →
    readLE16 (writeLE16 v B o) o = v ∧ readBE16 (writeBE16 v B o) o = v) ∧
  (∀ (B : List Byte) (o : Nat) (v : BitVec 32), o + 4 ≤ B.length → readLE32 (writeLE32 v B o) o = v) ∧
  (∀ (B : List Byte) (o : Nat) (v : BitVec 64), o + 8 ≤ B.length → readLE64 (writeLE64 v B o) o = v) ∧
  (∀ (m v k : Nat), k < m → byteAt (leBytes m v) k = BitVec.ofNat 8 (v / 2 ^ (8 * k)) ∧
    byteAt (beBytes m v) k = BitVec.ofNat 8 (v / 2 ^ (8 * (m - 1 - k)))) ∧
  (∀ (B : List Byte) (o : Nat) (new : List Byte), o + new.length ≤ B.length →
    (writeAt B o new).length = B.length ∧
    (∀ k, k < new.length → byteAt (writeAt B o new) (o + k) = byteAt new k) ∧
    (∀ k, k < o ∨ o + new.length ≤ k → byteAt (writeAt B o new) k = byteAt B k))

/-- R6's slice write: `x[name][hi:lo] <- v` writes those bits, "the other bits keep their value". -/
def Obligations.LaneWriteTouchesOneByte : Prop :=
  ∀ (n : Nat) (r : BitVec n) (j : Nat) (d : Byte) (i : Nat), i < n →
    (setLane r j d).getLsbD i = if 8 * j ≤ i ∧ i < 8 * j + 8 then d.getLsbD (i - 8 * j) else r.getLsbD i

/-- R45 and R65: writing a field's bytes, one a beat, through the lane the multiplexer selects assembles exactly the
field's value, whatever the register held. -/
def Obligations.EndianMuxAssemblesFields : Prop :=
  (∀ (r : BitVec 16) (B : List Byte) (o : Nat), o + 2 ≤ B.length →
    setLane (setLane r (lane .big 2 0) (byteAt B o)) (lane .big 2 1) (byteAt B (o + 1)) = readBE16 B o ∧
    setLane (setLane r (lane .little 2 0) (byteAt B o)) (lane .little 2 1) (byteAt B (o + 1)) = readLE16 B o) ∧
  (∀ (r : BitVec 64) (B : List Byte) (o : Nat), o + 8 ≤ B.length →
    (List.range 8).foldl (fun x k => setLane x (lane .little 8 k) (byteAt B (o + k))) r = readLE64 B o) ∧
  (∀ (r : BitVec 64) (B : List Byte) (o W : Nat), W ≤ 8 → o + W ≤ B.length → r.toNat < 2 ^ (8 * W) →
    (List.range W).foldl (fun x k => setLane x (lane .little W k) (byteAt B (o + k))) r =
      BitVec.ofNat 64 (leValue (memRead B o W)))

/-- R194. -/
def Obligations.EncodedFrameLength : Prop :=
  ∀ (c : Config) (e : Envelope), e.wf c = true →
    (encodeFrame c e).length = match e.body with
      | .soc _ => 28 + c.netTimeBytes
      | .preq _ => 280
      | .pres _ => 280

/-- R195: for every well-formed envelope, decoding its encoding gives it back and leaves the tail unexamined; and
encoding what a frame decodes to reproduces the frame up to `consumed` bytes. -/
def Obligations.EncodedFrameRoundTrip : Prop :=
  (∀ (c : Config) (e : Envelope), e.wf c = true →
    ∃ e' : Envelope, decodeFrame c (encodeFrame c e) = .ok e' ∧ e'.same e ∧
      e'.consumed = (match e.body with
        | .soc _ => 28 + c.netTimeBytes
        | .preq b => 24 + b.size.toNat
        | .pres b => 24 + b.size.toNat) ∧
      ∀ tail : List Byte, decodeFrame c ((encodeFrame c e).take e'.consumed ++ tail) = .ok e') ∧
  (∀ (c : Config) (B : List Byte) (e : Envelope), decodeFrame c B = .ok e →
    e.wf c = true ∧ (encodeFrame c e).take e.consumed = B.take e.consumed)

/-- R206: the first cause met in the order of `Decode` wins. -/
def Obligations.OutcomePriority : Prop :=
  ∀ (c : Config) (B : List Byte),
    resultStatus (decodeFrame c B) =
      if B.length < 17 then errorCode .truncatedBuffer
      else if classify (byteAt B 14) = .unknown then errorCode .unknownMessageType
      else if isNoBody (classify (byteAt B 14)) then errorCode .noBodyLayout
      else if classify (byteAt B 14) = .soc then
        if B.length < 28 + c.netTimeBytes then errorCode .truncatedBuffer else okCode
      else if B.length < 24 then errorCode .truncatedBuffer
      else if 256 < (readLE16 B 22).toNat then errorCode .sizeOutOfRange
      else if B.length < 24 + (readLE16 B 22).toNat then errorCode .truncatedBuffer
      else okCode

/-- R111, the function and the machine: below 17 bytes nothing is classified, and the frame boundary that comes while
`pos < 17` in PARSE posts TruncatedBuffer. -/
def Obligations.ShortFrameIsTruncated : Prop :=
  (∀ (c : Config) (B : List Byte), B.length < 17 →
    decodeFrame c B = .truncatedBuffer ∧ decodeInstr B = .error .truncatedBuffer) ∧
  (∀ (s : State) (d : Byte), s.event = .beat d true → s.phase = .parse → s.pos.toNat + 1 < 17 →
    ∃ t, step s = .next t ∧ t.result = some .truncatedBuffer ∧ t.pos.toNat = s.pos.toNat + 1)

/-! ### The edge -/

/-- Which of the four events an edge is, as R160 has it. The first two clauses, that the edge's wires are the head of the
list `inputs` and are idle when it is empty, are the model's choice of form for the neighbours (DESIGN CHOICE, log 2). -/
def Obligations.EdgeEventFollowsThePriority : Prop :=
  ∀ s : State,
    (∀ w rest, s.inputs = w :: rest → s.wires = w) ∧ (s.inputs = [] → s.wires = Wires.idle) ∧
    (s.event = .reset ↔ s.wires.rst = true) ∧
    (s.event = .take ↔ s.wires.rst = false ∧ s.resValid = true ∧ s.wires.resReady = true) ∧
    (∀ d l, s.event = .beat d l ↔ s.wires.rst = false ∧ s.resValid = false ∧ s.wires.inValid = true ∧
      s.wires.inData = d ∧ s.wires.inLast = l) ∧
    (s.event = .hold ↔ s.wires.rst = false ∧
      ((s.resValid = true ∧ s.wires.resReady = false) ∨ (s.resValid = false ∧ s.wires.inValid = false)))

/-- R161: bytes move exactly at the edges with `in_valid` and `in_ready`; a byte offered while a result is pending is not
consumed (the edge is the Hold or the Take it would be without the byte) and not lost: an upstream that keeps its duty
(R175 (a)) offers it again at the next edge. -/
def Obligations.BytesMoveOnlyWhenReady : Prop :=
  ∀ s : State,
    (s.inReady = true ↔ s.resValid = false ∧ s.wires.rst = false) ∧
    ((∃ d l, s.event = .beat d l) ↔ s.wires.inValid = true ∧ s.inReady = true) ∧
    (s.resValid = true → s.wires.rst = false → s.wires.inValid = true → s.offerHeld →
      ∃ t, step s = .next t ∧ t.x = s.x ∧ t.payload = s.payload ∧
        (s.wires.resReady = false → t = { s with inputs := s.inputs.tail }) ∧
        (s.wires.resReady = true →
          t = { s with resValid := false, pos := 0, phase := .parse, st := 0, inputs := s.inputs.tail }) ∧
        t.wires.inValid = true ∧ t.wires.inData = s.wires.inData ∧ t.wires.inLast = s.wires.inLast)

/-- A step is `exec` of the instruction whose tag is in effect, and adds nothing around it: the byte being accepted at
offset 14, else the register `msg_type` (R54; log 18). -/
def Obligations.StepRunsTheFetchedInstruction : Prop :=
  ∀ s : State,
    (∀ d l, s.event = .beat d l → s.phase = .parse → s.pos.toNat = 14 → step s = exec (decodeTag d) s) ∧
    ((∀ d l, s.event = .beat d l → s.phase = .parse → s.pos.toNat ≠ 14) → step s = exec (decodeTag s.x.msgType) s)

/-- The model's own interface (log 10): the word of a tag is decoded to its row, and the very next step fetches it at
offset 14 and runs it, in every state. -/
def Obligations.FetchWordRunsItsRow : Prop :=
  ∀ (s : State) (t : Byte),
    decodeTableWord 8 t.toNat = some (decodeTag t) ∧
    (s.withFetchWord 8 t.toNat).pos = 14 ∧ (s.withFetchWord 8 t.toNat).event = .beat t false ∧
    step (s.withFetchWord 8 t.toNat) = exec (decodeTag t) (s.withFetchWord 8 t.toNat) ∧
    ∃ u, step (s.withFetchWord 8 t.toNat) = .next u ∧ u.x.msgType = t ∧ u.pos = 15

/-- R172: the step, run through the instructions' own meanings, is the spec's next-state function. -/
def Obligations.StepIsTheSpecsStepFunction : Prop :=
  ∀ s : State,
    step s = .next { clockStep s s.wires.rst s.wires.inValid s.wires.inData s.wires.inLast s.wires.resReady with
      inputs := s.inputs.tail }

/-- No frame, error or input stops the block (R9 item 5, R200, R207); every instruction answers a next state in every
state, reads one edge of the wires and leaves the parameter W alone. -/
def Obligations.EveryEdgeGivesANextState : Prop :=
  (∀ (i : Instr) (s : State), ∃ t, exec i s = .next t ∧ t.inputs = s.inputs.tail ∧ t.cfg = s.cfg) ∧
  (∀ s : State, ∃ t, step s = .next t)

/-- R25: the state after reset, the payload cells each at its own draw (R20), the outputs it shows, and that the first byte
accepted after it is offset 0 of a frame. -/
def Obligations.ResetStateHoldsTheSpecsValues : Prop :=
  State.reset.pos = 0 ∧ State.reset.phase = .parse ∧ State.reset.st = 0 ∧ State.reset.resValid = false ∧
  (∀ k : Fin 6, State.reset.x.dstMac[k] = 0 ∧ State.reset.x.srcMac[k] = 0) ∧ State.reset.x.etherType = 0 ∧
  State.reset.x.msgType = 0 ∧ State.reset.x.dstNode = 0 ∧ State.reset.x.srcNode = 0 ∧ State.reset.x.body0 = 0 ∧
  State.reset.x.flag1 = 0 ∧ State.reset.x.flag2 = 0 ∧ State.reset.x.netTime = 0 ∧ State.reset.x.relTime = 0 ∧
  State.reset.x.pdoVersion = 0 ∧ State.reset.x.reserved2 = 0 ∧ State.reset.x.size = 0 ∧
  (∀ a, State.reset.payload.cell a = Config.powerUpByte a) ∧
  (∀ ins : List Wires, (ins.headD Wires.idle).rst = false →
    ({ State.reset with inputs := ins } : State).outputs.inReady = true) ∧
  State.reset.outputs.resValid = false ∧ State.reset.outputs.status = 0 ∧ State.reset.outputs.cls = 0 ∧
  State.reset.outputs.consumed = 0 ∧ State.reset.outputs.dstMac = 0 ∧ State.reset.outputs.srcMac = 0 ∧
  State.reset.result = none ∧
  (∀ (d : Byte) (rest : List Wires), ∃ t,
    step { State.reset with inputs := Wires.offer d false :: rest } = .next t ∧ t.x.dstMac[0] = d ∧ t.pos = 1)

/-- R230: an edge with `rst`, whatever the state, the instruction and the other inputs. -/
def Obligations.ResetEdgeWritesResetValues : Prop :=
  ∀ s : State, s.wires.rst = true →
    ∃ t : State,
      t = { x := { dstMac := #v[0, 0, 0, 0, 0, 0], srcMac := #v[0, 0, 0, 0, 0, 0], etherType := 0, msgType := 0,
                   dstNode := 0, srcNode := 0, body0 := 0, flag1 := 0, flag2 := 0, netTime := 0, relTime := 0,
                   pdoVersion := 0, reserved2 := 0, size := 0 },
            payload := s.payload, pos := 0, phase := .parse, st := 0, resValid := false,
            cfg := s.cfg, inputs := s.inputs.tail } ∧
      (∀ i : Instr, exec i s = .next t) ∧ step s = .next t ∧ s.inReady = false

/-- R170: the consumer takes the result. -/
def Obligations.TakeReopensTheInput : Prop :=
  ∀ s : State, s.wires.rst = false → s.resValid = true → s.wires.resReady = true →
    (∀ i : Instr, exec i s =
      .next { s with resValid := false, pos := 0, phase := .parse, st := 0, inputs := s.inputs.tail }) ∧
    ∃ t, step s = .next t ∧ t.atFrameStart ∧ (t.wires.rst = false → t.inReady = true)

/-- R171: nothing but the passing of the edge. -/
def Obligations.HoldChangesNothing : Prop :=
  ∀ s : State, s.wires.rst = false →
    (s.resValid = true ∧ s.wires.resReady = false ∨ s.resValid = false ∧ s.wires.inValid = false) →
    (∀ i : Instr, exec i s = .next { s with inputs := s.inputs.tail }) ∧
    step s = .next { s with inputs := s.inputs.tail }

/-- R168: in DRAIN only the end-of-frame mark of a byte matters. -/
def Obligations.DrainingDiscardsBytes : Prop :=
  ∀ (i : Instr) (s : State) (d : Byte) (l : Bool), s.event = .beat d l → s.phase = .drain →
    exec i s = .next { s with resValid := l, inputs := s.inputs.tail }

/-- R163: `pos` counts the bytes accepted in PARSE and is frozen in DRAIN; in a state that meets the invariant the sum
does not overflow. -/
def Obligations.OffsetCountsParsedBytes : Prop :=
  ∀ (i : Instr) (s : State) (d : Byte) (l : Bool), s.event = .beat d l →
    ∃ t, exec i s = .next t ∧ (s.phase = .parse → t.pos = s.pos + 1 ∧ (s.Inv → t.pos.toNat = s.pos.toNat + 1)) ∧
      (s.phase = .drain → t.pos = s.pos)

/-- R169: the last beat of a frame does what it would do in mid-frame, and then posts the result, as TruncatedBuffer if
the phase is still PARSE; a beat that is not the last posts nothing. -/
def Obligations.FrameBoundaryPostsTheResult : Prop :=
  ∀ (i : Instr) (s : State) (d : Byte), s.event = .beat d true →
    ∃ m t : State,
      exec i { s with inputs := Wires.offer d false :: s.inputs.tail } = .next m ∧ m.resValid = false ∧
      exec i s = .next t ∧
      t = { m with resValid := true, st := if m.phase = .parse then errorCode .truncatedBuffer else m.st }

/-- R17: `res_valid` rises at the edge that accepts the last beat of a frame and falls at the Take or the Reset; while it
is 1 no byte is accepted, and nothing the result consists of changes. -/
def Obligations.ResultStaysUntilTaken : Prop :=
  State.reset.resValid = false ∧
  ∀ s : State, ∃ t, step s = .next t ∧
    (t.resValid = true ↔
      (∃ d, s.event = .beat d true) ∨ (s.resValid = true ∧ s.wires.rst = false ∧ s.wires.resReady = false)) ∧
    (s.resValid = true → s.outputs.inReady = false ∧
      (t.resValid = true → t = { s with inputs := s.inputs.tail }))

/-- How an error is entered (R207): only in a Beat in PARSE; a code other than truncation when `pos` reaches 17 or 24, the
phase going to DRAIN; truncation in the last Beat, the phase left at PARSE. Nothing is saved: the registers and the buffer
are those the beat's own store leaves (the table of R162). -/
def Obligations.ErrorsAreEnteredInTheirBeat : Prop :=
  ∀ s t : State, step s = .next t → s.st = 0 → t.st ≠ 0 →
    ∃ d l, s.event = .beat d l ∧ s.phase = .parse ∧ t.pos = s.pos + 1 ∧
      ((t.st = errorCode .unknownMessageType ∧ t.phase = .drain ∧ t.pos = 17 ∧ classify t.x.msgType = .unknown) ∨
       (t.st = errorCode .noBodyLayout ∧ t.phase = .drain ∧ t.pos = 17 ∧ isNoBody (classify t.x.msgType)) ∨
       (t.st = errorCode .sizeOutOfRange ∧ t.phase = .drain ∧ t.pos = 24 ∧ isPrq (classify t.x.msgType) ∧
         256 < t.x.size.toNat) ∨
       (t.st = errorCode .truncatedBuffer ∧ t.phase = .parse ∧ l = true ∧ t.resValid = true)) ∧
      t.x = (storeAtOffset s.pos.toNat (classify s.x.msgType) d s).x ∧
      t.payload = (storeAtOffset s.pos.toNat (classify s.x.msgType) d s).payload

/-! ### Beats, instruction by instruction

In each: the beat is accepted in PARSE at offset `s.pos`; everything not named keeps its value. -/

/-- The header beats at offsets 0 to 15, the same under every instruction (rows 0 to 15 of R162's table). -/
def Obligations.HeaderBeatsStoreTheirBytes : Prop :=
  ∀ (i : Instr) (s : State) (d : Byte) (l : Bool), s.event = .beat d l → s.phase = .parse →
    (∀ k, k < 6 → s.pos.toNat = k → exec i s = .next
      { s with x.dstMac := s.x.dstMac.setIfInBounds k d, pos := s.pos + 1, st := if l then 1 else s.st, resValid := l,
               inputs := s.inputs.tail }) ∧
    (∀ k, k < 6 → s.pos.toNat = 6 + k → exec i s = .next
      { s with x.srcMac := s.x.srcMac.setIfInBounds k d, pos := s.pos + 1, st := if l then 1 else s.st, resValid := l,
               inputs := s.inputs.tail }) ∧
    (s.pos.toNat = 12 → exec i s = .next
      { s with x.etherType := d ++ s.x.etherType.extractLsb' 0 8, pos := s.pos + 1, st := if l then 1 else s.st,
               resValid := l, inputs := s.inputs.tail }) ∧
    (s.pos.toNat = 13 → exec i s = .next
      { s with x.etherType := s.x.etherType.extractLsb' 8 8 ++ d, pos := s.pos + 1, st := if l then 1 else s.st,
               resValid := l, inputs := s.inputs.tail }) ∧
    (s.pos.toNat = 14 → exec i s = .next
      { s with x.msgType := d, pos := s.pos + 1, st := if l then 1 else s.st, resValid := l,
               inputs := s.inputs.tail }) ∧
    (s.pos.toNat = 15 → exec i s = .next
      { s with x.dstNode := d, pos := s.pos + 1, st := if l then 1 else s.st, resValid := l,
               inputs := s.inputs.tail })

/-- R164: the step that completes the header dispatches on the class. -/
def Obligations.DispatchAtOffsetSeventeen : Prop :=
  ∀ (s : State) (d : Byte) (l : Bool), s.event = .beat d l → s.phase = .parse → s.pos.toNat = 16 →
    (classify s.x.msgType = .unknown → step s = .next
      { s with x.srcNode := d, pos := 17, st := 2, phase := .drain, resValid := l, inputs := s.inputs.tail }) ∧
    (isNoBody (classify s.x.msgType) → step s = .next
      { s with x.srcNode := d, pos := 17, st := 4, phase := .drain, resValid := l, inputs := s.inputs.tail }) ∧
    (classify s.x.msgType = .soc ∨ isPrq (classify s.x.msgType) → step s = .next
      { s with x.srcNode := d, pos := 17, st := if l then 1 else s.st, resValid := l, inputs := s.inputs.tail })

/-- What each instruction with no body decoder does when its header completes, and what Soc, Preq and Pres do there: the
effect of R91 to R96 and R164, one clause per instruction. -/
def Obligations.HeaderCompletionPerInstruction : Prop :=
  ∀ (s : State) (d : Byte) (l : Bool), s.event = .beat d l → s.phase = .parse → s.pos.toNat = 16 →
    ∃ noBody unknown going : State,
      noBody = { s with x.srcNode := d, pos := 17, st := errorCode .noBodyLayout, phase := .drain, resValid := l,
                        inputs := s.inputs.tail } ∧
      unknown = { s with x.srcNode := d, pos := 17, st := errorCode .unknownMessageType, phase := .drain, resValid := l,
                         inputs := s.inputs.tail } ∧
      going = { s with x.srcNode := d, pos := 17, st := if l then errorCode .truncatedBuffer else s.st, resValid := l,
                       inputs := s.inputs.tail } ∧
      exec .nonpowerlink s = .next noBody ∧ exec .soa s = .next noBody ∧ exec .asnd s = .next noBody ∧
      exec .amni s = .next noBody ∧ exec .ainv s = .next noBody ∧
      exec .unknown1 s = .next unknown ∧ (∀ low, exec (.unknown2 low) s = .next unknown) ∧
      exec .unknown3 s = .next unknown ∧ (∀ low, exec (.unknown4 low) s = .next unknown) ∧
      (∀ low, exec (.unknown5 low) s = .next unknown) ∧ (∀ low, exec (.unknown6 low) s = .next unknown) ∧
      (∀ low, exec (.unknown7 low) s = .next unknown) ∧ (∀ low, exec (.unknown8 low) s = .next unknown) ∧
      exec .soc s = .next going ∧ exec .preq s = .next going ∧ exec .pres s = .next going

/-- The Soc body, beat by beat (format S, R62, and the Soc rows of R162), with Soc completion (R165): at `q = 28 + W`
the decode is complete. -/
def Obligations.SocBodyBeats : Prop :=
  ∀ (s : State) (d : Byte) (l : Bool), s.event = .beat d l → s.phase = .parse →
    (s.pos.toNat = 17 → exec .soc s = .next
      { s with x.body0 := d, pos := 18, st := if l then 1 else s.st, resValid := l, inputs := s.inputs.tail }) ∧
    (s.pos.toNat = 18 → exec .soc s = .next
      { s with x.flag1 := d, pos := 19, st := if l then 1 else s.st, resValid := l, inputs := s.inputs.tail }) ∧
    (s.pos.toNat = 19 → exec .soc s = .next
      { s with x.flag2 := d, pos := 20, st := if l then 1 else s.st, resValid := l, inputs := s.inputs.tail }) ∧
    (∀ k, k < s.cfg.netTimeBytes → s.pos.toNat = 20 + k → exec .soc s = .next
      { s with x.netTime := setLane s.x.netTime k d, pos := s.pos + 1, st := if l then 1 else s.st, resValid := l,
               inputs := s.inputs.tail }) ∧
    (∀ k, k < 7 → s.pos.toNat = 20 + s.cfg.netTimeBytes + k → exec .soc s = .next
      { s with x.relTime := setLane s.x.relTime k d, pos := s.pos + 1, st := if l then 1 else s.st, resValid := l,
               inputs := s.inputs.tail }) ∧
    (s.pos.toNat = 27 + s.cfg.netTimeBytes → exec .soc s = .next
      { s with x.relTime := setLane s.x.relTime 7 d, pos := s.pos + 1, st := 0, phase := .drain, resValid := l,
               inputs := s.inputs.tail })

/-- The fixed part of a Preq or Pres body up to the low byte of `size` (formats Q and P, R63, R64). -/
def Obligations.PrqFixedPartBeats : Prop :=
  ∀ (i : Instr) (s : State) (d : Byte) (l : Bool), i = .preq ∨ i = .pres → s.event = .beat d l → s.phase = .parse →
    (s.pos.toNat = 17 → exec i s = .next
      { s with x.body0 := d, pos := 18, st := if l then 1 else s.st, resValid := l, inputs := s.inputs.tail }) ∧
    (s.pos.toNat = 18 → exec i s = .next
      { s with x.flag1 := d, pos := 19, st := if l then 1 else s.st, resValid := l, inputs := s.inputs.tail }) ∧
    (s.pos.toNat = 19 → exec i s = .next
      { s with x.flag2 := d, pos := 20, st := if l then 1 else s.st, resValid := l, inputs := s.inputs.tail }) ∧
    (s.pos.toNat = 20 → exec i s = .next
      { s with x.pdoVersion := d, pos := 21, st := if l then 1 else s.st, resValid := l, inputs := s.inputs.tail }) ∧
    (s.pos.toNat = 21 → exec i s = .next
      { s with x.reserved2 := d, pos := 22, st := if l then 1 else s.st, resValid := l, inputs := s.inputs.tail }) ∧
    (s.pos.toNat = 22 → exec i s = .next
      { s with x.size := s.x.size.extractLsb' 8 8 ++ d, pos := 23, st := if l then 1 else s.st, resValid := l,
               inputs := s.inputs.tail })

/-- R166: the size test, on the size completed by this very beat. -/
def Obligations.PrqSizeTest : Prop :=
  ∀ (i : Instr) (s : State) (d : Byte) (l : Bool) (sz : BitVec 16), i = .preq ∨ i = .pres → s.event = .beat d l →
    s.phase = .parse → s.pos.toNat = 23 → sz = d ++ s.x.size.extractLsb' 0 8 →
    (256 < sz.toNat → exec i s = .next
      { s with x.size := sz, pos := 24, st := errorCode .sizeOutOfRange, phase := .drain, resValid := l,
               inputs := s.inputs.tail }) ∧
    (sz = 0 → exec i s = .next
      { s with x.size := sz, pos := 24, st := okCode, phase := .drain, resValid := l, inputs := s.inputs.tail }) ∧
    (sz ≠ 0 → sz.toNat ≤ 256 → exec i s = .next
      { s with x.size := sz, pos := 24, st := if l then 1 else s.st, resValid := l, inputs := s.inputs.tail })

/-- R167: a payload beat, at every offset R162's table has one, and the completion that the last declared byte brings. -/
def Obligations.PrqPayloadBeats : Prop :=
  ∀ (i : Instr) (s : State) (d : Byte) (l : Bool), i = .preq ∨ i = .pres → s.event = .beat d l → s.phase = .parse →
    24 ≤ s.pos.toNat → s.pos.toNat < 280 →
    (s.pos.toNat + 1 = 24 + s.x.size.toNat → exec i s = .next
      { s with payload := s.payload.write (s.pos.toNat - 24) d, pos := s.pos + 1, st := okCode, phase := .drain,
               resValid := l, inputs := s.inputs.tail }) ∧
    (s.pos.toNat + 1 ≠ 24 + s.x.size.toNat → exec i s = .next
      { s with payload := s.payload.write (s.pos.toNat - 24) d, pos := s.pos + 1, st := if l then 1 else s.st,
               resValid := l, inputs := s.inputs.tail })

/-! ### The payload buffer and the frame conditions -/

/-- The payload buffer as a memory: a write is seen at its cell and nowhere else, whatever the other cells hold, and
keeps the canonical form; the read port shows the cell it addresses (R6, R20, R50). -/
def Obligations.PayloadBufferReadsAndWrites : Prop :=
  (∀ (m : Memory) (a b : Nat) (v : Byte),
    (m.write a v).read b = if b = a then some v else m.read b) ∧
  (∀ (m : Memory) (a : Nat) (v : Byte), m.wf → a < 256 → (m.write a v).wf) ∧
  (∀ (m : Memory) (a b : Nat) (v : Byte), (m.write a v).cell b = if b = a then v else m.cell b) ∧
  (∀ (m m' : Memory), m.wf → m'.wf → (∀ a, m.read a = m'.read a) → m = m') ∧
  (∀ s : State, s.outputs.plRdata = s.payload.cell s.wires.plRaddr.toNat)

/-- Every byte of the buffer is unchanged but the one cell a payload beat of a Preq or Pres frame stores to, computed by
the function the meaning uses (R49). -/
def Obligations.PayloadChangesOnlyAtTheBeatsCell : Prop :=
  ∀ (i : Instr) (s : State), s.payload.wf →
    ∃ t, exec i s = .next t ∧ t.payload.wf ∧
      (∀ d l a, s.event = .beat d l → s.phase = .parse → isPrq i.cls → payloadIndex s.pos.toNat = some a →
        t.payload.read a = some d ∧ ∀ b, b ≠ a → t.payload.read b = s.payload.read b) ∧
      ((∀ d l, s.event = .beat d l → s.phase = .parse → isPrq i.cls → payloadIndex s.pos.toNat = none) →
        t.payload = s.payload)

/-- The frame of the registers (R13): outside a Reset, an instruction writes only registers of its own formats, and only
at a beat in PARSE at their offsets. -/
def Obligations.FormatsWriteOnlyTheirOwnRegisters : Prop :=
  ∀ (i : Instr) (s : State), s.wires.rst = false →
    ∃ t, exec i s = .next t ∧
      (i.cls ≠ .soc → t.x.netTime = s.x.netTime ∧ t.x.relTime = s.x.relTime) ∧
      (¬isPrq i.cls → t.x.pdoVersion = s.x.pdoVersion ∧ t.x.reserved2 = s.x.reserved2 ∧ t.x.size = s.x.size ∧
        t.payload = s.payload) ∧
      (i.cls ≠ .soc → ¬isPrq i.cls → t.x.body0 = s.x.body0 ∧ t.x.flag1 = s.x.flag1 ∧ t.x.flag2 = s.x.flag2) ∧
      (17 ≤ s.pos.toNat → t.x.dstMac = s.x.dstMac ∧ t.x.srcMac = s.x.srcMac ∧ t.x.etherType = s.x.etherType ∧
        t.x.msgType = s.x.msgType ∧ t.x.dstNode = s.x.dstNode ∧ t.x.srcNode = s.x.srcNode) ∧
      (s.pos.toNat < 17 → t.x.body0 = s.x.body0 ∧ t.x.flag1 = s.x.flag1 ∧ t.x.flag2 = s.x.flag2 ∧ t.x.netTime = s.x.netTime ∧
        t.x.relTime = s.x.relTime ∧ t.x.pdoVersion = s.x.pdoVersion ∧ t.x.reserved2 = s.x.reserved2 ∧ t.x.size = s.x.size ∧
        t.payload = s.payload) ∧
      ((∀ d l, s.event = .beat d l → s.phase = .drain) →
        t.x.dstMac = s.x.dstMac ∧ t.x.srcMac = s.x.srcMac ∧ t.x.etherType = s.x.etherType ∧ t.x.msgType = s.x.msgType ∧
        t.x.dstNode = s.x.dstNode ∧ t.x.srcNode = s.x.srcNode ∧ t.x.body0 = s.x.body0 ∧ t.x.flag1 = s.x.flag1 ∧ t.x.flag2 = s.x.flag2 ∧
        t.x.netTime = s.x.netTime ∧ t.x.relTime = s.x.relTime ∧ t.x.pdoVersion = s.x.pdoVersion ∧ t.x.reserved2 = s.x.reserved2 ∧
        t.x.size = s.x.size ∧ t.payload = s.payload)

/-! ### Outputs -/

/-- R18. -/
def Obligations.ClassOutputIsTheCode : Prop :=
  ∀ s : State,
    s.clsPort = classCode (classify s.x.msgType) ∧
    (classify s.x.msgType ≠ .unknown → s.clsPort = s.x.msgType.extractLsb' 0 4) ∧
    (s.clsPort = 0xF ↔ classify s.x.msgType = .unknown) ∧
    State.reset.clsPort = 0

/-- R174, with R26's place of a MAC byte on its port (byte `k` on bits `[8k+7 : 8k]`): every output as a function of the
state; all but `in_ready` and `pl_rdata` come from registers, so the wires have no part in them. -/
def Obligations.OutputsAreFunctionsOfState : Prop :=
  ∀ s : State,
    (∀ ins : List Wires, ∃ ready rdata,
      ({ s with inputs := ins } : State).outputs = { s.outputs with inReady := ready, plRdata := rdata }) ∧
    s.outputs.resValid = s.resValid ∧ s.outputs.inReady = (!s.resValid && !s.wires.rst) ∧ s.outputs.status = s.st ∧
    s.outputs.cls = classCode (classify s.x.msgType) ∧ s.outputs.consumed = s.pos ∧
    (∀ k : Fin 6, s.outputs.dstMac.extractLsb' (8 * k.val) 8 = s.x.dstMac[k] ∧
      s.outputs.srcMac.extractLsb' (8 * k.val) 8 = s.x.srcMac[k]) ∧
    s.outputs.etherType = s.x.etherType ∧ s.outputs.msgType = s.x.msgType ∧ s.outputs.dstNode = s.x.dstNode ∧
    s.outputs.srcNode = s.x.srcNode ∧ s.outputs.body0 = s.x.body0 ∧ s.outputs.flag1 = s.x.flag1 ∧
    s.outputs.flag2 = s.x.flag2 ∧ s.outputs.netTime = s.x.netTime ∧ s.outputs.relTime = s.x.relTime ∧
    s.outputs.pdoVersion = s.x.pdoVersion ∧ s.outputs.reserved2 = s.x.reserved2 ∧ s.outputs.size = s.x.size ∧
    s.outputs.plRdata = s.payload.cell s.wires.plRaddr.toNat

/-! ### Whole frames on the machine

`Sys2Proof.core.run n` is `n` clock edges. Each statement starts where a frame starts, whatever the registers and the
buffer hold, and lets any idle edges stand between the frame's bytes. -/

/-- R112 to R117: once 17 bytes of a frame of any class have been accepted, and however the frame goes on, the header
registers hold its first 17 bytes, MACs in wire order, `ether_type` big-endian. -/
def Obligations.HeaderFieldsReachTheirRegisters : Prop :=
  ∀ (s : State) (B : List Byte) (ins rest : List Wires), s.atFrameStart → 17 ≤ B.length → Delivers ins B →
    ∃ t : State, Sys2Proof.core.run ins.length ({ s with inputs := ins ++ rest } : State) = .next t ∧
      (∀ k : Fin 6, t.x.dstMac[k] = byteAt B k.val) ∧ (∀ k : Fin 6, t.x.srcMac[k] = byteAt B (6 + k.val)) ∧
      t.x.etherType.toNat = 256 * (byteAt B 12).toNat + (byteAt B 13).toNat ∧
      t.x.msgType = byteAt B 14 ∧ t.x.dstNode = byteAt B 15 ∧ t.x.srcNode = byteAt B 16 ∧
      t.clsPort = classCode (classify (byteAt B 14))

/-- R91 to R95: a frame of a recognised class with no body decoder. -/
def Obligations.NoBodyFrameRun : Prop :=
  ∀ (s : State) (B : List Byte) (ins rest : List Wires), s.atFrameStart → B ≠ [] → Delivers ins B →
    isNoBody (classify (byteAt B 14)) →
    (B.length < 17 → ∃ t : State,
      Sys2Proof.core.run ins.length ({ s with inputs := ins ++ rest } : State) = .next t ∧
      t.result = some .truncatedBuffer ∧ t.pos.toNat = B.length) ∧
    (17 ≤ B.length → ∃ t : State,
      Sys2Proof.core.run ins.length ({ s with inputs := ins ++ rest } : State) = .next t ∧
      t = { s with x := s.x.withHeaderOf B, pos := 17, phase := .drain, st := 4, resValid := true, inputs := rest } ∧
      t.result = some (.noBodyLayout (decodeHeader B)) ∧ t.clsPort = (byteAt B 14).extractLsb' 0 4)

/-- R96: a frame with an Unknown tag. -/
def Obligations.UnknownFrameRun : Prop :=
  ∀ (s : State) (B : List Byte) (ins rest : List Wires), s.atFrameStart → B ≠ [] → Delivers ins B →
    classify (byteAt B 14) = .unknown →
    (B.length < 17 → ∃ t : State,
      Sys2Proof.core.run ins.length ({ s with inputs := ins ++ rest } : State) = .next t ∧
      t.result = some .truncatedBuffer ∧ t.pos.toNat = B.length) ∧
    (17 ≤ B.length → ∃ t : State,
      Sys2Proof.core.run ins.length ({ s with inputs := ins ++ rest } : State) = .next t ∧
      t = { s with x := s.x.withHeaderOf B, pos := 17, phase := .drain, st := 2, resValid := true, inputs := rest } ∧
      t.result = some (.unknownMessageType (decodeHeader B)) ∧ t.clsPort = 0xF)

/-- R130: a Soc frame, complete or truncated. Only the registers named are written: in particular not `pdo_version`,
`reserved2`, `size` or the payload buffer. -/
def Obligations.SocFrameRun : Prop :=
  ∀ (s : State) (B : List Byte) (ins rest : List Wires), s.atFrameStart → s.netTimeInWidth → B ≠ [] → Delivers ins B →
    (15 ≤ B.length → byteAt B 14 = 0x01) →
    (B.length < 28 + s.cfg.netTimeBytes → ∃ t : State,
      Sys2Proof.core.run ins.length ({ s with inputs := ins ++ rest } : State) = .next t ∧
      t.result = some .truncatedBuffer ∧ t.pos.toNat = B.length ∧ t.x.pdoVersion = s.x.pdoVersion ∧
      t.x.reserved2 = s.x.reserved2 ∧ t.x.size = s.x.size ∧ t.payload = s.payload) ∧
    (28 + s.cfg.netTimeBytes ≤ B.length →
      Sys2Proof.core.run ins.length ({ s with inputs := ins ++ rest } : State) = .next
        ({ s with
           x := { s.x.withHeaderOf B with
                  body0 := byteAt B 17
                  flag1 := byteAt B 18
                  flag2 := byteAt B 19
                  netTime := BitVec.ofNat 64 (leValue (memRead B 20 s.cfg.netTimeBytes))
                  relTime := readLE64 B (20 + s.cfg.netTimeBytes) }
           pos := BitVec.ofNat 9 (28 + s.cfg.netTimeBytes)
           phase := .drain
           st := okCode
           resValid := true
           inputs := rest } : State))

/-- R140 and R141: a Preq or Pres frame in each of its four outcomes, the tests in the order of R147, with the payload
cells each writes (R49). `net_time` and `rel_time` are never written. -/
def Obligations.PreqAndPresFrameRun : Prop :=
  ∀ (s : State) (B : List Byte) (ins rest : List Wires) (size : Nat), s.atFrameStart → B ≠ [] →
    Delivers ins B → (15 ≤ B.length → byteAt B 14 = 0x03 ∨ byteAt B 14 = 0x04) → size = (readLE16 B 22).toNat →
    ∃ t : State, Sys2Proof.core.run ins.length ({ s with inputs := ins ++ rest } : State) = .next t ∧
      t.x.netTime = s.x.netTime ∧ t.x.relTime = s.x.relTime ∧ t.resValid = true ∧ t.inputs = rest ∧
      (B.length < 24 → t.result = some .truncatedBuffer ∧ t.pos.toNat = B.length ∧ t.payload = s.payload) ∧
      (24 ≤ B.length → 256 < size →
        t.result = some .sizeOutOfRange ∧ t.pos = 24 ∧ t.x.size = readLE16 B 22 ∧ t.payload = s.payload) ∧
      (24 ≤ B.length → size ≤ 256 → B.length < 24 + size →
        t.result = some .truncatedBuffer ∧ t.pos.toNat = B.length ∧
        (∀ i, 24 + i < B.length → t.payload.read i = some (byteAt B (24 + i))) ∧
        (∀ i, B.length ≤ 24 + i → t.payload.read i = s.payload.read i)) ∧
      (size ≤ 256 → 24 + size ≤ B.length →
        t = { s with
              x := { s.x.withHeaderOf B with
                     body0 := byteAt B 17
                     flag1 := byteAt B 18
                     flag2 := byteAt B 19
                     pdoVersion := byteAt B 20
                     reserved2 := byteAt B 21
                     size := readLE16 B 22 }
              payload := t.payload
              pos := BitVec.ofNat 9 (24 + size)
              phase := .drain
              st := okCode
              resValid := true
              inputs := rest } ∧
        (∀ i, i < size → t.payload.read i = some (byteAt B (24 + i))) ∧
        (∀ i, size ≤ i → t.payload.read i = s.payload.read i))

/-- R173: the machine implements `Decode`. For every frame of at least one byte, from every state where a frame starts,
with any idle edges between the beats, the posted result, its status code and `consumed` are those of the function. -/
def Obligations.MachineImplementsDecode : Prop :=
  ∀ (s : State) (B : List Byte) (ins rest : List Wires), s.atFrameStart → s.netTimeInWidth → B ≠ [] →
    Delivers ins B →
    ∃ t : State, Sys2Proof.core.run ins.length ({ s with inputs := ins ++ rest } : State) = .next t ∧
      t.resValid = true ∧ t.inputs = rest ∧ t.cfg = s.cfg ∧
      t.result = some (decodeFrame s.cfg B) ∧
      t.outputs.status = resultStatus (decodeFrame s.cfg B) ∧
      t.outputs.consumed.toNat = resultConsumed B.length (decodeFrame s.cfg B)

/-- R22: what an earlier frame left takes no part in the result of a frame. Two parsers of the same parameter, given the
same frame, agree on every output R23 marks valid (`cls` among the header columns) and on the result, and mark the same
outputs valid. Where R23 marks `cls` not valid the statement is silent on it: a frame that ends before offset 14 leaves
the tag of an earlier frame in `msg_type` (log 12). -/
def Obligations.ResultDependsOnTheFrameAlone : Prop :=
  ∀ (s s' : State) (B : List Byte) (ins ins' rest rest' : List Wires), s.atFrameStart → s'.atFrameStart →
    s.netTimeInWidth → s'.netTimeInWidth → s.cfg = s'.cfg → B ≠ [] →
    Delivers ins B → Delivers ins' B →
    ∃ t t' : State, Sys2Proof.core.run ins.length ({ s with inputs := ins ++ rest } : State) = .next t ∧
      Sys2Proof.core.run ins'.length ({ s' with inputs := ins' ++ rest' } : State) = .next t' ∧
      t.result = t'.result ∧
      ∀ g : FieldGroup, t.validOutput g = t'.validOutput g ∧ (t.validOutput g = true → t.agreeOn t' g)

/-- R231: a reset in the middle of a frame, or with a result pending, from any state whatever, abandons it without trace:
the next byte is offset 0, and the next frame decodes as if nothing had been. -/
def Obligations.ResetForgetsTheFrame : Prop :=
  ∀ (s : State) (w : Wires) (B : List Byte) (ins rest : List Wires), w.rst = true → B ≠ [] →
    Delivers ins B →
    ∃ r t : State, Sys2Proof.core.run 1 ({ s with inputs := w :: (ins ++ rest) } : State) = .next r ∧
      r.atFrameStart ∧ r.result = none ∧
      Sys2Proof.core.run (1 + ins.length) ({ s with inputs := w :: (ins ++ rest) } : State) = .next t ∧
      t.result = some (decodeFrame s.cfg B)

/-- R205 and R209: whatever the outcome of a frame, fatal or not, once its result is taken the next frame is decoded as a
frame of its own. The consumer waits any number of edges before it takes. -/
def Obligations.EveryOutcomeResumesWithTheNextFrame : Prop :=
  ∀ (s : State) (A B : List Byte) (insA wait insB rest : List Wires) (w : Wires), s.atFrameStart → s.netTimeInWidth →
    A ≠ [] → B ≠ [] → Delivers insA A → Delivers insB B →
    (∀ v ∈ wait, v.rst = false ∧ v.resReady = false) → w.rst = false → w.resReady = true →
    ∃ t u : State,
      Sys2Proof.core.run (insA.length + wait.length)
        ({ s with inputs := insA ++ wait ++ w :: (insB ++ rest) } : State) = .next t ∧
      t.result = some (decodeFrame s.cfg A) ∧
      Sys2Proof.core.run (insA.length + wait.length + 1 + insB.length)
        ({ s with inputs := insA ++ wait ++ w :: (insB ++ rest) } : State) = .next u ∧
      u.result = some (decodeFrame s.cfg B)

/-- R178: the empty frame exists at the function level only; the shortest frame of the machine is one byte. -/
def Obligations.ShortestFrameIsOneByte : Prop :=
  (∀ c : Config, decodeFrame c [] = .truncatedBuffer) ∧ (∀ ins : List Wires, ¬Delivers ins []) ∧
  (∀ (s : State) (d : Byte) (rest : List Wires), s.atFrameStart → ∃ t : State,
    step { s with inputs := Wires.offer d true :: rest } = .next t ∧ t.st = 1 ∧ t.pos = 1 ∧ t.resValid = true ∧
    t.result = some .truncatedBuffer)

/-- R177: a frame whose last byte never comes has no result and no error, however many bytes or idle edges pass. -/
def Obligations.NoResultBeforeTheLastByte : Prop :=
  ∀ (s : State) (ins rest : List Wires), s.resValid = false → (∀ w ∈ ins, w.rst = false ∧ w.inLast = false) →
    ∃ t : State, Sys2Proof.core.run ins.length ({ s with inputs := ins ++ rest } : State) = .next t ∧
      t.resValid = false ∧ t.result = none ∧ t.inputs = rest

/-! ### The invariant -/

/-- The invariant holds after reset. -/
def Obligations.ResetStateMeetsTheInvariant : Prop := State.reset.Inv

/-- Every step keeps the invariant, from every state that meets it. With it: `pos` never passes 280 (R14), `st` is never
5, 6 or 7 (R16), the codes, the class and the frozen offset fit together (R19, R200), and the payload list stays
canonical. -/
def Obligations.EveryStepKeepsTheInvariant : Prop :=
  ∀ s t : State, s.Inv → step s = .next t → t.Inv ∧ t.pos.toNat ≤ 280 ∧ t.st.toNat ≤ 4

/-- R19: what `consumed` reads while a result of a decided frame is pending, in every state that meets the invariant. -/
def Obligations.ConsumedFollowsTheStatus : Prop :=
  ∀ s : State, s.Inv → s.resValid = true →
    (s.outputs.status = okCode → classify s.x.msgType = .soc → s.outputs.consumed.toNat = 28 + s.cfg.netTimeBytes) ∧
    (s.outputs.status = okCode → isPrq (classify s.x.msgType) → s.outputs.consumed.toNat = 24 + s.x.size.toNat) ∧
    (s.outputs.status = errorCode .unknownMessageType ∨ s.outputs.status = errorCode .noBodyLayout →
      s.outputs.consumed.toNat = 17) ∧
    (s.outputs.status = errorCode .sizeOutOfRange → s.outputs.consumed.toNat = 24) ∧
    (s.outputs.status = errorCode .truncatedBuffer → 1 ≤ s.outputs.consumed.toNat ∧ s.outputs.consumed.toNat < 281) ∧
    s.result.isSome
end

