-- ==== Sys2Proof/Laws/Decode.lean ====
section
/-! SUPPORT. Byte lists, their little- and big-endian values, and the frame an opcode-table word stands for. -/

namespace Sys2Proof

/-! ### Bytes of a list -/

@[simp] theorem byteAt_zero (b : Byte) (bs : List Byte) : byteAt (b :: bs) 0 = b := rfl

@[simp] theorem byteAt_succ (b : Byte) (bs : List Byte) (k : Nat) : byteAt (b :: bs) (k + 1) = byteAt bs k := rfl

theorem byteAt_append_left {A B : List Byte} {k : Nat} (h : k < A.length) : byteAt (A ++ B) k = byteAt A k := by
  simp [byteAt, List.getElem?_append_left h]

theorem byteAt_append_right {A B : List Byte} {k : Nat} (h : A.length ≤ k) :
    byteAt (A ++ B) k = byteAt B (k - A.length) := by
  simp [byteAt, List.getElem?_append_right h]

theorem byteAt_take {B : List Byte} {n k : Nat} (h : k < n) : byteAt (B.take n) k = byteAt B k := by
  simp [byteAt, h]

theorem byteAt_drop (B : List Byte) (n k : Nat) : byteAt (B.drop n) k = byteAt B (n + k) := by
  simp [byteAt]

theorem byteAt_memRead (B : List Byte) (o n k : Nat) (h : k < n) : byteAt (memRead B o n) k = byteAt B (o + k) := by
  rw [memRead, byteAt_take h, byteAt_drop]

theorem memRead_length {B : List Byte} {o n : Nat} (h : o + n ≤ B.length) : (memRead B o n).length = n := by
  simp [memRead]; omega

theorem memRead_succ {B : List Byte} {o n : Nat} (h : o < B.length) :
    memRead B o (n + 1) = byteAt B o :: memRead B (o + 1) n := by
  simp only [memRead]
  rw [List.drop_eq_getElem_cons h, List.take_succ_cons]
  simp [byteAt, h]

@[simp] theorem memRead_zero (B : List Byte) (o : Nat) : memRead B o 0 = [] := by simp [memRead]

theorem memRead_append_left {A B : List Byte} {o n : Nat} (h : o + n ≤ A.length) :
    memRead (A ++ B) o n = memRead A o n := by
  simp only [memRead]
  rw [List.drop_append_of_le_length (by omega), List.take_append_of_le_length (by simp; omega)]

/-! ### Byte order -/

@[simp] theorem leBytes_length (m v : Nat) : (leBytes m v).length = m := by
  induction m generalizing v with
  | zero => rfl
  | succ m ih => simp [leBytes, ih]

@[simp] theorem beBytes_length (m v : Nat) : (beBytes m v).length = m := by simp [beBytes]

theorem leValue_lt (bs : List Byte) : leValue bs < 256 ^ bs.length := by
  induction bs with
  | nil => simp [leValue]
  | cons b bs ih =>
    have := b.isLt
    simp only [leValue, List.length_cons, Nat.pow_succ]
    omega

theorem leValue_append (A B : List Byte) : leValue (A ++ B) = leValue A + 256 ^ A.length * leValue B := by
  induction A with
  | nil => simp [leValue]
  | cons a A ih => simp only [List.cons_append, leValue, ih, List.length_cons, Nat.pow_succ]; ring

theorem leValue_leBytes (m v : Nat) : leValue (leBytes m v) = v % 256 ^ m := by
  induction m generalizing v with
  | zero => simp [leBytes, leValue, Nat.mod_one]
  | succ m ih =>
    rw [leBytes, leValue, ih, BitVec.toNat_ofNat, show (256 : ℕ) ^ (m + 1) = 256 * 256 ^ m by ring, Nat.mod_mul]

theorem beValue_append_singleton (A : List Byte) (b : Byte) : beValue (A ++ [b]) = 256 * beValue A + b.toNat := by
  induction A with
  | nil => simp [beValue]
  | cons a A ih =>
    simp only [List.cons_append, beValue, ih, List.length_append, List.length_cons, List.length_nil, Nat.pow_succ,
      Nat.zero_add]
    ring

theorem beValue_reverse (bs : List Byte) : beValue bs.reverse = leValue bs := by
  induction bs with
  | nil => rfl
  | cons b bs ih => rw [List.reverse_cons, beValue_append_singleton, ih, leValue]; omega

theorem beValue_beBytes (m v : Nat) : beValue (beBytes m v) = v % 256 ^ m := by
  rw [beBytes, beValue_reverse, leValue_leBytes]

theorem leBytes_leValue (bs : List Byte) : leBytes bs.length (leValue bs) = bs := by
  induction bs with
  | nil => rfl
  | cons b bs ih =>
    have hb := b.isLt
    have h1 : (b.toNat + 256 * leValue bs) / 256 = leValue bs := by omega
    have h2 : BitVec.ofNat 8 (b.toNat + 256 * leValue bs) = b := by
      apply BitVec.eq_of_toNat_eq; simp; omega
    simp [leBytes, leValue, h1, h2, ih]

/-- Byte `k` of a value laid out least significant byte first. -/
theorem byteAt_leBytes {m k : Nat} (v : Nat) (h : k < m) : byteAt (leBytes m v) k = BitVec.ofNat 8 (v / 2 ^ (8 * k)) := by
  induction m generalizing v k with
  | zero => omega
  | succ m ih =>
    cases k with
    | zero => simp [leBytes]
    | succ k =>
      rw [leBytes, byteAt_succ, ih _ (by omega), Nat.div_div_eq_div_mul,
        show 256 * 2 ^ (8 * k) = 2 ^ (8 * (k + 1)) by rw [show 8 * (k + 1) = 8 * k + 8 by ring, Nat.pow_add]; ring]

theorem byteAt_reverse {bs : List Byte} {k : Nat} (h : k < bs.length) :
    byteAt bs.reverse k = byteAt bs (bs.length - 1 - k) := by
  simp [byteAt, List.getElem?_reverse h]

/-- A little-endian value bit by bit. -/
theorem leValue_testBit (bs : List Byte) (i : Nat) : (leValue bs).testBit i = (byteAt bs (i / 8)).getLsbD (i % 8) := by
  induction bs generalizing i with
  | nil => simp [leValue, byteAt]
  | cons b bs ih =>
    rw [leValue, show b.toNat + 256 * leValue bs = 2 ^ 8 * leValue bs + b.toNat by ring,
      Nat.testBit_two_pow_mul_add _ b.isLt]
    by_cases h : i < 8
    · rw [if_pos h, show i / 8 = 0 by omega, show i % 8 = i by omega]; rfl
    · rw [if_neg h, ih, show i / 8 = (i - 8) / 8 + 1 by omega, byteAt_succ, show (i - 8) % 8 = i % 8 by omega]

theorem memRead_writeAt {B : List Byte} {o : Nat} {new : List Byte} (h : o + new.length ≤ B.length) :
    memRead (writeAt B o new) o new.length = new := by
  have h0 : (B.take o).length = o := by simp; omega
  simp only [memRead, writeAt, List.append_assoc]
  rw [List.drop_append_of_le_length (by omega), List.drop_of_length_le (by omega)]
  simp

/-! ### The frame of an opcode-table word -/

@[simp] theorem tableFrame_length (nbits w : Nat) : (tableFrame nbits w).length = 280 := by
  rw [tableFrame, List.length_append, leBytes_length, List.length_replicate]

theorem tableFrame_eq (t : Byte) : tableFrame 8 t.toNat = List.replicate 14 0 ++ t :: leBytes 265 (t.toNat / 256) := by
  have h : t.toNat % 2 ^ 8 = t.toNat := Nat.mod_eq_of_lt t.isLt
  rw [tableFrame, h, leBytes, BitVec.ofNat_toNat, BitVec.setWidth_eq]

theorem byteAt_tableFrame (t : Byte) : byteAt (tableFrame 8 t.toNat) 14 = t := by
  rw [tableFrame_eq, byteAt_append_right (by simp)]; rfl

/-- The word of a tag decodes to the tag's row. -/
theorem decodeInstr_tableFrame (t : Byte) : decodeInstr (tableFrame 8 t.toNat) = .ok (decodeTag t) := by
  simp [decodeInstr, byteAt_tableFrame]

theorem decodeTableWord_eq (t : Byte) : decodeTableWord 8 t.toNat = some (decodeTag t) := by
  rw [decodeTableWord, decodeInstr_tableFrame]; rfl

theorem decodeTag_encodeTag (i : Instr) : decodeTag (encodeTag i) = i := by
  cases i <;> first | rfl | (rename_i low; revert low; decide)

theorem encodeTag_decodeTag (t : Byte) : encodeTag (decodeTag t) = t := by revert t; decide

end Sys2Proof
end

