-- ==== Sys2Proof/Laws/Memory.lean ====
section
/-! SUPPORT. The payload buffer as a memory: read after write, and the canonical form. -/

namespace Sys2Proof.Machine

@[simp] theorem Memory.read_nil (a : Nat) : Memory.read [] a = none := rfl

theorem Memory.read_write (m : Memory) (a b : Nat) (v : Byte) :
    (m.write a v).read b = if b = a then some v else m.read b := by
  induction m with
  | nil => simp [Memory.write, Memory.read]
  | cons x m ih =>
    obtain ⟨c, w⟩ := x
    simp only [Memory.write]
    split_ifs with h1 h2 <;> simp only [Memory.read, ih] <;> split_ifs <;> first | rfl | omega

@[simp] theorem Memory.read_write_same (m : Memory) (a : Nat) (v : Byte) : (m.write a v).read a = some v := by
  simp [Memory.read_write]

theorem Memory.read_write_other (m : Memory) {a b : Nat} (v : Byte) (h : b ≠ a) :
    (m.write a v).read b = m.read b := by
  simp [Memory.read_write, h]

theorem Memory.cell_write (m : Memory) (a b : Nat) (v : Byte) :
    (m.write a v).cell b = if b = a then v else m.cell b := by
  unfold Memory.cell; rw [Memory.read_write]; split_ifs <;> rfl

theorem Memory.cell_eq_of_read {m : Memory} {a : Nat} {v : Byte} (h : m.read a = some v) : m.cell a = v := by
  simp [Memory.cell, h]

/-- The indices listed after a write are those listed before it and the one written. -/
theorem Memory.mem_write {m : Memory} {a : Nat} {v : Byte} {x : Host.Cell} (h : x ∈ m.write a v) :
    x.1 = a ∨ x ∈ m := by
  induction m with
  | nil => simp only [Memory.write, List.mem_singleton] at h; exact .inl (by rw [h])
  | cons y m ih =>
    obtain ⟨c, w⟩ := y
    simp only [Memory.write] at h
    split_ifs at h with h1 h2
    · rcases List.mem_cons.1 h with rfl | h
      · exact .inl rfl
      · exact .inr h
    · rcases List.mem_cons.1 h with rfl | h
      · exact .inl rfl
      · exact .inr (List.mem_cons_of_mem _ h)
    · rcases List.mem_cons.1 h with rfl | h
      · exact .inr List.mem_cons_self
      · exact (ih h).imp id (List.mem_cons_of_mem _)

/-- A write keeps the canonical form. -/
theorem Memory.wf_write {m : Memory} {a : Nat} (v : Byte) (hm : m.wf) (ha : a < 256) : (m.write a v).wf := by
  refine ⟨?_, fun x hx => (Memory.mem_write hx).elim (fun h => by omega) (hm.2 x)⟩
  have hs := hm.1
  clear hm
  induction m with
  | nil => simp [Memory.write]
  | cons y m ih =>
    obtain ⟨c, w⟩ := y
    rw [List.pairwise_cons] at hs
    simp only [Memory.write]
    split_ifs with h1 h2
    · refine List.pairwise_cons.2 ⟨fun x hx => ?_, List.pairwise_cons.2 hs⟩
      rcases List.mem_cons.1 hx with rfl | hx
      · exact h1
      · exact h1.trans (hs.1 x hx)
    · subst h2
      exact List.pairwise_cons.2 hs
    · refine List.pairwise_cons.2 ⟨fun x hx => ?_, ih hs.2⟩
      rcases Memory.mem_write hx with h | h
      · show c < x.1
        omega
      · exact hs.1 x h

theorem Memory.wf_nil : Memory.wf [] := ⟨List.Pairwise.nil, by simp⟩

/-- Below the first listed index nothing is listed. -/
theorem Memory.read_eq_none_of_lt {m : Memory} {a : Nat} (h : ∀ x ∈ m, a < x.1) : m.read a = none := by
  induction m with
  | nil => rfl
  | cons y m ih =>
    obtain ⟨c, w⟩ := y
    have hc : a < c := h (c, w) List.mem_cons_self
    simp only [Memory.read, if_neg (Nat.ne_of_lt hc)]
    exact ih fun x hx => h x (List.mem_cons_of_mem _ hx)

end Sys2Proof.Machine
end

