-- ==== Sys2Proof/Laws/State.lean ====
section
/-! SUPPORT. One lemma per field per named update of the state, so that no proof unfolds a record update. -/

namespace Sys2Proof.Machine

/-! ### Reset (R230) -/

@[simp] theorem State.applyReset_x (s : State) : (s.applyReset).x = State.reset.x := rfl
@[simp] theorem State.applyReset_payload (s : State) : (s.applyReset).payload = s.payload := rfl
@[simp] theorem State.applyReset_pos (s : State) : (s.applyReset).pos = State.reset.pos := rfl
@[simp] theorem State.applyReset_phase (s : State) : (s.applyReset).phase = State.reset.phase := rfl
@[simp] theorem State.applyReset_st (s : State) : (s.applyReset).st = State.reset.st := rfl
@[simp] theorem State.applyReset_resValid (s : State) : (s.applyReset).resValid = State.reset.resValid := rfl
@[simp] theorem State.applyReset_cfg (s : State) : (s.applyReset).cfg = s.cfg := rfl
@[simp] theorem State.applyReset_inputs (s : State) : (s.applyReset).inputs = s.inputs := rfl

/-! ### Advancing (R163) -/

@[simp] theorem State.advance_x (s : State) : (s.advance).x = s.x := rfl
@[simp] theorem State.advance_payload (s : State) : (s.advance).payload = s.payload := rfl
@[simp] theorem State.advance_pos (s : State) : (s.advance).pos = s.pos + 1 := rfl
@[simp] theorem State.advance_phase (s : State) : (s.advance).phase = s.phase := rfl
@[simp] theorem State.advance_st (s : State) : (s.advance).st = s.st := rfl
@[simp] theorem State.advance_resValid (s : State) : (s.advance).resValid = s.resValid := rfl
@[simp] theorem State.advance_cfg (s : State) : (s.advance).cfg = s.cfg := rfl
@[simp] theorem State.advance_inputs (s : State) : (s.advance).inputs = s.inputs := rfl

/-! ### Completion (R165 to R167) -/

@[simp] theorem State.complete_x (s : State) : (s.complete).x = s.x := rfl
@[simp] theorem State.complete_payload (s : State) : (s.complete).payload = s.payload := rfl
@[simp] theorem State.complete_pos (s : State) : (s.complete).pos = s.pos := rfl
@[simp] theorem State.complete_phase (s : State) : (s.complete).phase = .drain := rfl
@[simp] theorem State.complete_st (s : State) : (s.complete).st = okCode := rfl
@[simp] theorem State.complete_resValid (s : State) : (s.complete).resValid = s.resValid := rfl
@[simp] theorem State.complete_cfg (s : State) : (s.complete).cfg = s.cfg := rfl
@[simp] theorem State.complete_inputs (s : State) : (s.complete).inputs = s.inputs := rfl

/-! ### Take (R170) -/

@[simp] theorem State.takeResult_x (s : State) : (s.takeResult).x = s.x := rfl
@[simp] theorem State.takeResult_payload (s : State) : (s.takeResult).payload = s.payload := rfl
@[simp] theorem State.takeResult_pos (s : State) : (s.takeResult).pos = 0 := rfl
@[simp] theorem State.takeResult_phase (s : State) : (s.takeResult).phase = .parse := rfl
@[simp] theorem State.takeResult_st (s : State) : (s.takeResult).st = 0 := rfl
@[simp] theorem State.takeResult_resValid (s : State) : (s.takeResult).resValid = false := rfl
@[simp] theorem State.takeResult_cfg (s : State) : (s.takeResult).cfg = s.cfg := rfl
@[simp] theorem State.takeResult_inputs (s : State) : (s.takeResult).inputs = s.inputs := rfl

/-! ### The next edge -/

@[simp] theorem State.nextEdge_x (s : State) : (s.nextEdge).x = s.x := rfl
@[simp] theorem State.nextEdge_payload (s : State) : (s.nextEdge).payload = s.payload := rfl
@[simp] theorem State.nextEdge_pos (s : State) : (s.nextEdge).pos = s.pos := rfl
@[simp] theorem State.nextEdge_phase (s : State) : (s.nextEdge).phase = s.phase := rfl
@[simp] theorem State.nextEdge_st (s : State) : (s.nextEdge).st = s.st := rfl
@[simp] theorem State.nextEdge_resValid (s : State) : (s.nextEdge).resValid = s.resValid := rfl
@[simp] theorem State.nextEdge_cfg (s : State) : (s.nextEdge).cfg = s.cfg := rfl
@[simp] theorem State.nextEdge_inputs (s : State) : (s.nextEdge).inputs = s.inputs.tail := rfl

/-! ### Storing (R162) -/

@[simp] theorem storeHeader_x (s : State) (d : Byte) : (storeHeader d s).x = headerStore s.pos.toNat d s.x := rfl
@[simp] theorem storeHeader_payload (s : State) (d : Byte) : (storeHeader d s).payload = s.payload := rfl
@[simp] theorem storeHeader_pos (s : State) (d : Byte) : (storeHeader d s).pos = s.pos := rfl
@[simp] theorem storeHeader_phase (s : State) (d : Byte) : (storeHeader d s).phase = s.phase := rfl
@[simp] theorem storeHeader_st (s : State) (d : Byte) : (storeHeader d s).st = s.st := rfl
@[simp] theorem storeHeader_resValid (s : State) (d : Byte) : (storeHeader d s).resValid = s.resValid := rfl
@[simp] theorem storeHeader_cfg (s : State) (d : Byte) : (storeHeader d s).cfg = s.cfg := rfl
@[simp] theorem storeHeader_inputs (s : State) (d : Byte) : (storeHeader d s).inputs = s.inputs := rfl

/-! ### Storing under Soc -/

@[simp] theorem storeSoc_x (s : State) (d : Byte) : (storeSoc d s).x = socStore s.cfg.netTimeBytes s.pos.toNat d s.x := rfl
@[simp] theorem storeSoc_payload (s : State) (d : Byte) : (storeSoc d s).payload = s.payload := rfl
@[simp] theorem storeSoc_pos (s : State) (d : Byte) : (storeSoc d s).pos = s.pos := rfl
@[simp] theorem storeSoc_phase (s : State) (d : Byte) : (storeSoc d s).phase = s.phase := rfl
@[simp] theorem storeSoc_st (s : State) (d : Byte) : (storeSoc d s).st = s.st := rfl
@[simp] theorem storeSoc_resValid (s : State) (d : Byte) : (storeSoc d s).resValid = s.resValid := rfl
@[simp] theorem storeSoc_cfg (s : State) (d : Byte) : (storeSoc d s).cfg = s.cfg := rfl
@[simp] theorem storeSoc_inputs (s : State) (d : Byte) : (storeSoc d s).inputs = s.inputs := rfl

/-! ### Storing under Preq and Pres -/

@[simp] theorem storePrq_x (s : State) (d : Byte) : (storePrq d s).x = prqStore s.pos.toNat d s.x := rfl
@[simp] theorem storePrq_payload (s : State) (d : Byte) : (storePrq d s).payload = payloadStore s.pos.toNat d s.payload := rfl
@[simp] theorem storePrq_pos (s : State) (d : Byte) : (storePrq d s).pos = s.pos := rfl
@[simp] theorem storePrq_phase (s : State) (d : Byte) : (storePrq d s).phase = s.phase := rfl
@[simp] theorem storePrq_st (s : State) (d : Byte) : (storePrq d s).st = s.st := rfl
@[simp] theorem storePrq_resValid (s : State) (d : Byte) : (storePrq d s).resValid = s.resValid := rfl
@[simp] theorem storePrq_cfg (s : State) (d : Byte) : (storePrq d s).cfg = s.cfg := rfl
@[simp] theorem storePrq_inputs (s : State) (d : Byte) : (storePrq d s).inputs = s.inputs := rfl

/-! ### Raising an error (R207) -/

@[simp] theorem State.raise_x (s : State) (k : ErrorKind) : (s.raise k).x = s.x := by cases k <;> rfl
@[simp] theorem State.raise_payload (s : State) (k : ErrorKind) : (s.raise k).payload = s.payload := by cases k <;> rfl
@[simp] theorem State.raise_pos (s : State) (k : ErrorKind) : (s.raise k).pos = s.pos := by cases k <;> rfl
@[simp] theorem State.raise_st (s : State) (k : ErrorKind) : (s.raise k).st = errorCode k := by cases k <;> rfl
@[simp] theorem State.raise_resValid (s : State) (k : ErrorKind) : (s.raise k).resValid = s.resValid := by cases k <;> rfl
@[simp] theorem State.raise_cfg (s : State) (k : ErrorKind) : (s.raise k).cfg = s.cfg := by cases k <;> rfl
@[simp] theorem State.raise_inputs (s : State) (k : ErrorKind) : (s.raise k).inputs = s.inputs := by cases k <;> rfl

@[simp] theorem State.raise_phase (s : State) (k : ErrorKind) :
    (s.raise k).phase = if k = .truncatedBuffer then s.phase else .drain := by cases k <;> rfl

/-! ### The frame boundary (R169) -/

@[simp] theorem State.boundary_x (s : State) : (s.boundary).x = s.x := by unfold State.boundary; split <;> simp
@[simp] theorem State.boundary_payload (s : State) : (s.boundary).payload = s.payload := by unfold State.boundary; split <;> simp
@[simp] theorem State.boundary_pos (s : State) : (s.boundary).pos = s.pos := by unfold State.boundary; split <;> simp
@[simp] theorem State.boundary_phase (s : State) : (s.boundary).phase = s.phase := by unfold State.boundary; split <;> simp
@[simp] theorem State.boundary_resValid (s : State) : (s.boundary).resValid = true := by unfold State.boundary; split <;> simp
@[simp] theorem State.boundary_cfg (s : State) : (s.boundary).cfg = s.cfg := by unfold State.boundary; split <;> simp
@[simp] theorem State.boundary_inputs (s : State) : (s.boundary).inputs = s.inputs := by unfold State.boundary; split <;> simp

@[simp] theorem State.boundary_st (s : State) :
    s.boundary.st = if s.phase = .parse then errorCode .truncatedBuffer else s.st := by
  unfold State.boundary; split <;> simp [*]

end Sys2Proof.Machine
end

