-- ==== Sys2Proof/Laws/Operands.lean ====
section
/-! SUPPORT. The endian multiplexer bit by bit, and what a store table leaves alone. -/

namespace Sys2Proof.Machine

theorem setLane_getLsbD {n : Nat} (r : BitVec n) (j : Nat) (d : Byte) {i : Nat} (hi : i < n) :
    (setLane r j d).getLsbD i = if 8 * j ≤ i ∧ i < 8 * j + 8 then d.getLsbD (i - 8 * j) else r.getLsbD i := by
  have hff : ∀ k, (0xFF#8).getLsbD k = decide (k < 8) := by
    intro k
    by_cases hk : k < 8
    · interval_cases k <;> rfl
    · simpa [hk] using BitVec.getLsbD_of_ge (0xFF#8) k (by omega)
  by_cases h1 : i < 8 * j
  · simp [setLane, hi, h1, Nat.not_le.2 h1]
  · by_cases h2 : i < 8 * j + 8
    · simp [setLane, hi, h1, h2, Nat.not_lt.1 h1, hff, show i - 8 * j < 8 by omega]
    · have h3 : d.getLsbD (i - 8 * j) = false := BitVec.getLsbD_of_ge _ _ (by omega)
      simp [setLane, hi, h1, h2, Nat.not_lt.1 h1, hff, h3, show ¬ i - 8 * j < 8 by omega]

/-- The high byte of a 16-bit field is written. -/
theorem setLane_high16 (r : BitVec 16) (d : Byte) : setLane r 1 d = d ++ r.extractLsb' 0 8 := by
  apply BitVec.eq_of_getLsbD_eq; intro i hi
  rw [setLane_getLsbD _ _ _ hi, BitVec.getLsbD_append, BitVec.getLsbD_extractLsb']
  by_cases h : i < 8
  · simp [h, Nat.not_le.2 h]
  · simp [h, show 8 ≤ i by omega, show i < 16 by omega]

/-- The low byte of a 16-bit field is written. -/
theorem setLane_low16 (r : BitVec 16) (d : Byte) : setLane r 0 d = r.extractLsb' 8 8 ++ d := by
  apply BitVec.eq_of_getLsbD_eq; intro i hi
  rw [setLane_getLsbD _ _ _ hi, BitVec.getLsbD_append, BitVec.getLsbD_extractLsb']
  by_cases h : i < 8
  · simp [h]
  · simp [h, show i - 8 < 8 by omega, show 8 + (i - 8) = i by omega]

theorem toNat_lt_two_pow_iff {n : Nat} (r : BitVec n) (k : Nat) :
    r.toNat < 2 ^ k ↔ ∀ i, k ≤ i → r.getLsbD i = false := by
  constructor
  · intro h i hi
    rw [BitVec.getLsbD, Nat.testBit_lt_two_pow (lt_of_lt_of_le h (Nat.pow_le_pow_right (by omega) hi))]
  · intro h
    exact Nat.lt_pow_two_of_testBit _ (fun i hi => h i hi)

/-- Writing a lane below bit `k` keeps a value below `2 ^ k`. -/
theorem setLane_toNat_lt {n : Nat} (r : BitVec n) {j k : Nat} (d : Byte) (hj : 8 * j + 8 ≤ k) (h : r.toNat < 2 ^ k) :
    (setLane r j d).toNat < 2 ^ k := by
  rw [toNat_lt_two_pow_iff] at *
  intro i hi
  by_cases hn : i < n
  · rw [setLane_getLsbD _ _ _ hn, if_neg (by omega)]; exact h i hi
  · exact BitVec.getLsbD_of_ge _ _ (by omega)

/-- Writing the lowest `m` lanes in turn, bit by bit. -/
theorem foldl_setLane_getLsbD {n : Nat} (r : BitVec n) (f : Nat → Byte) (m : Nat) {i : Nat} (hi : i < n) :
    ((List.range m).foldl (fun x k => setLane x k (f k)) r).getLsbD i =
      if i < 8 * m then (f (i / 8)).getLsbD (i % 8) else r.getLsbD i := by
  induction m with
  | zero => simp
  | succ m ih =>
    rw [List.range_succ, List.foldl_append, List.foldl_cons, List.foldl_nil, setLane_getLsbD _ _ _ hi, ih]
    split_ifs <;> first | omega | rfl | skip
    rw [show i / 8 = m by omega, show i % 8 = i - 8 * m by omega]

theorem netTimeBytes_range (c : Config) : 1 ≤ c.netTimeBytes ∧ c.netTimeBytes ≤ 8 := by
  unfold Config.netTimeBytes; omega

/-! ### The store tables by offset -/

theorem headerStore_of_ge {p : Nat} (h : 17 ≤ p) (d : Byte) (x : Fields) : headerStore p d x = x := by
  unfold headerStore; split_ifs <;> first | rfl | omega

theorem socStore_header {p : Nat} (h : p < 17) (W : Nat) (d : Byte) (x : Fields) :
    socStore W p d x = headerStore p d x := if_pos h

theorem prqStore_header {p : Nat} (h : p < 17) (d : Byte) (x : Fields) : prqStore p d x = headerStore p d x := if_pos h

theorem prqStore_of_ge {p : Nat} (h : 24 ≤ p) (d : Byte) (x : Fields) : prqStore p d x = x := by
  unfold prqStore prqFixedStore; split_ifs <;> first | rfl | omega

theorem payloadStore_of_lt {p : Nat} (h : p < 24) (d : Byte) (m : Memory) : payloadStore p d m = m := by
  simp [payloadStore, payloadIndex, Nat.not_le.2 h]

theorem payloadStore_of_ge {p : Nat} (h : 280 ≤ p) (d : Byte) (m : Memory) : payloadStore p d m = m := by
  simp [payloadStore, payloadIndex, Nat.not_lt.2 h]

theorem payloadStore_of_mem {p : Nat} (h : 24 ≤ p) (h' : p < 280) (d : Byte) (m : Memory) :
    payloadStore p d m = m.write (p - 24) d := by
  simp [payloadStore, payloadIndex, h, h']

theorem payloadIndex_eq_some {p a : Nat} : payloadIndex p = some a ↔ p = 24 + a ∧ a < 256 := by
  unfold payloadIndex; split_ifs with h
  · simp; omega
  · simp; omega

/-! ### What a store table leaves alone -/

/-- The header formats' registers after a store that is not of the header. -/
theorem bodyStartStore_header (p : Nat) (d : Byte) (x : Fields) :
    (bodyStartStore p d x).dstMac = x.dstMac ∧ (bodyStartStore p d x).srcMac = x.srcMac ∧
    (bodyStartStore p d x).etherType = x.etherType ∧ (bodyStartStore p d x).msgType = x.msgType ∧
    (bodyStartStore p d x).dstNode = x.dstNode ∧ (bodyStartStore p d x).srcNode = x.srcNode := by
  unfold bodyStartStore; split_ifs <;> simp

theorem headerStore_body (p : Nat) (d : Byte) (x : Fields) :
    (headerStore p d x).body0 = x.body0 ∧ (headerStore p d x).flag1 = x.flag1 ∧ (headerStore p d x).flag2 = x.flag2 ∧
    (headerStore p d x).netTime = x.netTime ∧ (headerStore p d x).relTime = x.relTime ∧
    (headerStore p d x).pdoVersion = x.pdoVersion ∧ (headerStore p d x).reserved2 = x.reserved2 ∧
    (headerStore p d x).size = x.size := by
  unfold headerStore; split_ifs <;> simp

theorem headerStore_msgType {p : Nat} (d : Byte) (x : Fields) :
    (headerStore p d x).msgType = if p = 14 then d else x.msgType := by
  unfold headerStore; split_ifs <;> first | rfl | omega

theorem socStore_prq (W p : Nat) (d : Byte) (x : Fields) :
    (socStore W p d x).pdoVersion = x.pdoVersion ∧ (socStore W p d x).reserved2 = x.reserved2 ∧
    (socStore W p d x).size = x.size := by
  unfold socStore headerStore bodyStartStore socTimesStore; split_ifs <;> simp

/-- A Soc store keeps `net_time` in its 8·W bits. -/
theorem socStore_netTime_lt {W : Nat} (p : Nat) (d : Byte) {x : Fields} (h : x.netTime.toNat < 2 ^ (8 * W)) :
    (socStore W p d x).netTime.toNat < 2 ^ (8 * W) := by
  unfold socStore
  split_ifs
  · rw [(headerStore_body p d x).2.2.2.1]; exact h
  · unfold bodyStartStore; split_ifs <;> exact h
  · unfold socTimesStore; split_ifs
    · exact setLane_toNat_lt _ _ (by simp [lane]; omega) h
    · exact h
    · exact h

theorem prqStore_soc (p : Nat) (d : Byte) (x : Fields) :
    (prqStore p d x).netTime = x.netTime ∧ (prqStore p d x).relTime = x.relTime := by
  unfold prqStore headerStore bodyStartStore prqFixedStore; split_ifs <;> simp

theorem socStore_headerRegs {W p : Nat} (h : 17 ≤ p) (d : Byte) (x : Fields) :
    (socStore W p d x).dstMac = x.dstMac ∧ (socStore W p d x).srcMac = x.srcMac ∧
    (socStore W p d x).etherType = x.etherType ∧ (socStore W p d x).msgType = x.msgType ∧
    (socStore W p d x).dstNode = x.dstNode ∧ (socStore W p d x).srcNode = x.srcNode := by
  unfold socStore bodyStartStore socTimesStore; split_ifs <;> first | omega | simp

theorem prqStore_headerRegs {p : Nat} (h : 17 ≤ p) (d : Byte) (x : Fields) :
    (prqStore p d x).dstMac = x.dstMac ∧ (prqStore p d x).srcMac = x.srcMac ∧
    (prqStore p d x).etherType = x.etherType ∧ (prqStore p d x).msgType = x.msgType ∧
    (prqStore p d x).dstNode = x.dstNode ∧ (prqStore p d x).srcNode = x.srcNode := by
  unfold prqStore bodyStartStore prqFixedStore; split_ifs <;> first | omega | simp

end Sys2Proof.Machine
end

