-- ==== Sys2Proof/Laws/PerInstr.lean ====
section
/-! SUPPORT. Statements about every instruction as syntax, one lemma per constructor (LAWS.json). Family `RowAndTag`: the
instruction's tag byte is of its row of the table (R67), classifies as its class (R90), and decodes back to it. -/

namespace Sys2Proof.Laws.RowAndTag

/-- The tag of `i` matches its row, and only by its own class and free bits. -/
def Statement (i : Instr) : Prop :=
  decodeTag (encodeTag i) = i ∧ classify (encodeTag i) = i.cls ∧
  encodeTag i &&& (tagRows.getD (rowIndex i) (0, 0)).2 = (tagRows.getD (rowIndex i) (0, 0)).1

theorem nonpowerlink : Statement .nonpowerlink := by unfold Statement; decide
theorem soc : Statement .soc := by unfold Statement; decide
theorem preq : Statement .preq := by unfold Statement; decide
theorem pres : Statement .pres := by unfold Statement; decide
theorem soa : Statement .soa := by unfold Statement; decide
theorem asnd : Statement .asnd := by unfold Statement; decide
theorem amni : Statement .amni := by unfold Statement; decide
theorem ainv : Statement .ainv := by unfold Statement; decide
theorem unknown1 : Statement .unknown1 := by unfold Statement; decide
theorem unknown2 (low : BitVec 2) : Statement (.unknown2 low) := by unfold Statement; revert low; decide
theorem unknown3 : Statement .unknown3 := by unfold Statement; decide
theorem unknown4 (low : BitVec 1) : Statement (.unknown4 low) := by unfold Statement; revert low; decide
theorem unknown5 (low : BitVec 4) : Statement (.unknown5 low) := by unfold Statement; revert low; decide
theorem unknown6 (low : BitVec 5) : Statement (.unknown6 low) := by unfold Statement; revert low; decide
theorem unknown7 (low : BitVec 6) : Statement (.unknown7 low) := by unfold Statement; revert low; decide
theorem unknown8 (low : BitVec 7) : Statement (.unknown8 low) := by unfold Statement; revert low; decide

end Sys2Proof.Laws.RowAndTag
end

