-- ==== Sys2Proof/Laws/Safety.lean ====
section
/-! SUPPORT. The terms of Safety.lean: the beats of a frame deliver it. -/

namespace Sys2Proof.Machine

theorem marked_cons_cons (a b : Byte) (bs : List Byte) : marked (a :: b :: bs) = (a, false) :: marked (b :: bs) := rfl

theorem frameBeats_cons_cons (a b : Byte) (bs : List Byte) :
    frameBeats (a :: b :: bs) = Wires.offer a false :: frameBeats (b :: bs) := rfl

@[simp] theorem frameBeats_length (B : List Byte) : (frameBeats B).length = B.length := by
  induction B with
  | nil => rfl
  | cons a B ih =>
    cases B with
    | nil => rfl
    | cons b bs => rw [frameBeats_cons_cons, List.length_cons, ih]; rfl

@[simp] theorem marked_length (B : List Byte) : (marked B).length = B.length := by
  induction B with
  | nil => rfl
  | cons a B ih =>
    cases B with
    | nil => rfl
    | cons b bs => rw [marked_cons_cons, List.length_cons, ih]; rfl

/-- The wires of a frame: none resets, each offers a byte, in order and marked as R175 (b) asks. -/
theorem frameBeats_spec (B : List Byte) :
    (∀ w ∈ frameBeats B, w.rst = false ∧ w.inValid = true) ∧ offered (frameBeats B) = marked B := by
  induction B with
  | nil => exact ⟨by simp [frameBeats], rfl⟩
  | cons a B ih =>
    cases B with
    | nil =>
      refine ⟨fun w hw => ?_, rfl⟩
      rw [List.mem_singleton.1 hw]; exact ⟨rfl, rfl⟩
    | cons b bs =>
      refine ⟨fun w hw => ?_, ?_⟩
      · rcases List.mem_cons.1 hw with rfl | hw
        · exact ⟨rfl, rfl⟩
        · exact ih.1 w hw
      · rw [frameBeats_cons_cons, marked_cons_cons, ← ih.2]; rfl

/-- A frame of at least one byte, offered without idle edges, is delivered. -/
theorem delivers_frameBeats {B : List Byte} (h : B ≠ []) : Delivers (frameBeats B) B := by
  obtain ⟨h1, h2⟩ := frameBeats_spec B
  refine ⟨fun w hw => (h1 w hw).1, h2, ?_⟩
  rcases hl : (frameBeats B).getLast? with _ | w
  · rw [List.getLast?_eq_none_iff] at hl
    have := frameBeats_length B
    rw [hl] at this
    exact absurd (List.length_eq_zero_iff.1 this.symm) h
  · simp [(h1 w (List.mem_of_getLast? hl)).2]

/-- Idle edges before a frame do not change what is delivered. -/
theorem delivers_idle {ins : List Wires} {B : List Byte} {w : Wires} (hr : w.rst = false) (hv : w.inValid = false)
    (h : Delivers ins B) : Delivers (w :: ins) B := by
  obtain ⟨h1, h2, h3⟩ := h
  refine ⟨fun v hv' => ?_, ?_, ?_⟩
  · rcases List.mem_cons.1 hv' with rfl | hv'
    · exact hr
    · exact h1 v hv'
  · rw [← h2]; simp [offered, hv]
  · cases ins with
    | nil => simp at h3
    | cons v ins => simpa using h3

end Sys2Proof.Machine
end

