-- ==== Sys2Proof/Laws/Step.lean ====
section
/-! SUPPORT. What one edge can do, said once: every instruction's meaning is `State.atEdge` over the store table and the
settling rule of its class, so later proofs cite these lemmas and never unfold `exec`. -/

namespace Sys2Proof.Machine

/-- The store table of a class. -/
def storeOf : MessageType → Byte → State → State
  | .soc => storeSoc
  | .preq => storePrq
  | .pres => storePrq
  | .nonPowerlink => storeHeader
  | .soa => storeHeader
  | .asnd => storeHeader
  | .amni => storeHeader
  | .aInv => storeHeader
  | .unknown => storeHeader

/-- The settling rule of a class. -/
def settleOf : MessageType → State → State
  | .soc => settleSoc
  | .preq => settlePrq
  | .pres => settlePrq
  | .nonPowerlink => settleStop .noBodyLayout
  | .soa => settleStop .noBodyLayout
  | .asnd => settleStop .noBodyLayout
  | .amni => settleStop .noBodyLayout
  | .aInv => settleStop .noBodyLayout
  | .unknown => settleStop .unknownMessageType

/-- One edge under a class, as a function. -/
def classEdge (c : MessageType) (s : State) : State := s.atEdge (State.beat (storeOf c) (settleOf c))

theorem exec_eq (i : Instr) (s : State) : exec i s = .next (classEdge i.cls s) := by cases i <;> rfl

theorem decodeTag_cls (t : Byte) : (decodeTag t).cls = classify t := by
  revert t; decide

/-- A step is one edge under the class of the tag in effect. -/
theorem step_eq (s : State) : step s = .next (classEdge (classify s.tagInEffect) s) := by
  rw [step, exec_eq, State.fetch, decodeTag_cls]

/-! ### The event of an edge -/

theorem State.wires_cons {s : State} {w : Wires} {rest : List Wires} (h : s.inputs = w :: rest) : s.wires = w := by
  rw [State.wires, h]; rfl

theorem State.wires_nil {s : State} (h : s.inputs = []) : s.wires = Wires.idle := by rw [State.wires, h]; rfl

theorem State.event_reset {s : State} (h : s.wires.rst = true) : s.event = .reset := by simp [State.event, h]

theorem State.event_take {s : State} (h : s.wires.rst = false) (hv : s.resValid = true)
    (hr : s.wires.resReady = true) : s.event = .take := by simp [State.event, h, hv, hr]

theorem State.event_beat {s : State} (h : s.wires.rst = false) (hv : s.resValid = false)
    (hi : s.wires.inValid = true) : s.event = .beat s.wires.inData s.wires.inLast := by
  simp [State.event, h, hv, hi]

theorem State.event_hold {s : State} (h : s.wires.rst = false)
    (hh : s.resValid = true ∧ s.wires.resReady = false ∨ s.resValid = false ∧ s.wires.inValid = false) :
    s.event = .hold := by
  rcases hh with ⟨hv, hr⟩ | ⟨hv, hi⟩ <;> simp [State.event, *]

theorem State.of_event_reset {s : State} (h : s.event = .reset) : s.wires.rst = true := by
  unfold State.event at h; split_ifs at h with h1; exact h1

theorem State.of_event_take {s : State} (h : s.event = .take) :
    s.wires.rst = false ∧ s.resValid = true ∧ s.wires.resReady = true := by
  unfold State.event at h; split_ifs at h with h1 h2
  exact ⟨by simpa using h1, by simpa using h2⟩

theorem State.of_event_hold {s : State} (h : s.event = .hold) :
    s.wires.rst = false ∧
      (s.resValid = true ∧ s.wires.resReady = false ∨ s.resValid = false ∧ s.wires.inValid = false) := by
  unfold State.event at h; split_ifs at h with h1 h2 h3
  refine ⟨by simpa using h1, ?_⟩
  cases hv : s.resValid <;> simp_all

/-- What a Beat says about the state and the wires. -/
theorem State.of_event_beat {s : State} {d : Byte} {l : Bool} (h : s.event = .beat d l) :
    s.wires.rst = false ∧ s.resValid = false ∧ s.wires.inValid = true ∧ s.wires.inData = d ∧ s.wires.inLast = l := by
  unfold State.event at h
  split_ifs at h with h1 h2 h3
  · simp only [Event.beat.injEq] at h
    simp only [Bool.and_eq_true, Bool.not_eq_true'] at h3
    exact ⟨by simpa using h1, h3.1, h3.2, h⟩

theorem State.event_eq_beat_iff {s : State} {d : Byte} {l : Bool} :
    s.event = .beat d l ↔ s.wires.rst = false ∧ s.resValid = false ∧ s.wires.inValid = true ∧
      s.wires.inData = d ∧ s.wires.inLast = l := by
  refine ⟨State.of_event_beat, ?_⟩
  rintro ⟨h, hv, hi, rfl, rfl⟩
  exact State.event_beat h hv hi

/-! ### One edge, by its event -/

theorem classEdge_reset {s : State} (c : MessageType) (h : s.event = .reset) :
    classEdge c s = s.applyReset.nextEdge := by simp [classEdge, State.atEdge, h]

theorem classEdge_take {s : State} (c : MessageType) (h : s.event = .take) :
    classEdge c s = s.takeResult.nextEdge := by simp [classEdge, State.atEdge, h]

theorem classEdge_hold {s : State} (c : MessageType) (h : s.event = .hold) : classEdge c s = s.nextEdge := by
  simp [classEdge, State.atEdge, h]

theorem classEdge_beat {s : State} (c : MessageType) {d : Byte} {l : Bool} (h : s.event = .beat d l) :
    classEdge c s = (State.beat (storeOf c) (settleOf c) d l s).nextEdge := by simp [classEdge, State.atEdge, h]

theorem State.beat_drain {s : State} (store : Byte → State → State) (settle : State → State) (d : Byte) (l : Bool)
    (h : s.phase = .drain) (hv : s.resValid = false) :
    State.beat store settle d l s = { s with resValid := l } := by
  cases l
  · cases s; simp_all [State.beat]
  · simp [State.beat, State.boundary, h]

theorem State.beat_parse_more {s : State} (store : Byte → State → State) (settle : State → State) (d : Byte)
    (h : s.phase = .parse) : State.beat store settle d false s = settle (store d s).advance := by
  simp [State.beat, h]

theorem State.beat_parse_last {s : State} (store : Byte → State → State) (settle : State → State) (d : Byte)
    (h : s.phase = .parse) : State.beat store settle d true s = (settle (store d s).advance).boundary := by
  simp [State.beat, h]

/-- The header rows of R162's table are the same for every class. -/
theorem storeOf_header (c : MessageType) (d : Byte) {s : State} (h : s.pos.toNat < 17) :
    storeOf c d s = storeHeader d s := by
  have hp := payloadStore_of_lt (show s.pos.toNat < 24 by omega) d s.payload
  cases c <;> simp only [storeOf, storeSoc, storePrq, storeHeader, socStore_header h, prqStore_header h, hp]

@[simp] theorem storeOf_pos (c : MessageType) (d : Byte) (s : State) : (storeOf c d s).pos = s.pos := by cases c <;> rfl
@[simp] theorem storeOf_phase (c : MessageType) (d : Byte) (s : State) : (storeOf c d s).phase = s.phase := by
  cases c <;> rfl
@[simp] theorem storeOf_st (c : MessageType) (d : Byte) (s : State) : (storeOf c d s).st = s.st := by cases c <;> rfl
@[simp] theorem storeOf_resValid (c : MessageType) (d : Byte) (s : State) :
    (storeOf c d s).resValid = s.resValid := by cases c <;> rfl
@[simp] theorem storeOf_cfg (c : MessageType) (d : Byte) (s : State) : (storeOf c d s).cfg = s.cfg := by cases c <;> rfl
@[simp] theorem storeOf_inputs (c : MessageType) (d : Byte) (s : State) : (storeOf c d s).inputs = s.inputs := by
  cases c <;> rfl

/-- What settling can do: nothing, complete, or raise an outcome that enters DRAIN. -/
theorem settleOf_cases (c : MessageType) (s : State) :
    settleOf c s = s ∨ settleOf c s = s.complete ∨
      ∃ k : ErrorKind, k ≠ .truncatedBuffer ∧ settleOf c s = s.raise k := by
  cases c
  case soc => simp only [settleOf, settleSoc]; split_ifs <;> simp
  case preq => simp only [settleOf, settlePrq]; split_ifs <;> first | simp; done | exact .inr (.inr ⟨_, by decide, rfl⟩)
  case pres => simp only [settleOf, settlePrq]; split_ifs <;> first | simp; done | exact .inr (.inr ⟨_, by decide, rfl⟩)
  all_goals
    simp only [settleOf, settleStop]; split_ifs <;> first | simp; done | exact .inr (.inr ⟨_, by decide, rfl⟩)

theorem settleStop_at (k : ErrorKind) {s : State} (h : s.pos.toNat = 17) : settleStop k s = s.raise k := if_pos h

theorem settleStop_elsewhere (k : ErrorKind) {s : State} (h : s.pos.toNat ≠ 17) : settleStop k s = s := if_neg h

theorem settleSoc_at {s : State} (h : s.pos.toNat = 28 + s.cfg.netTimeBytes) : settleSoc s = s.complete := if_pos h

theorem settleSoc_elsewhere {s : State} (h : s.pos.toNat ≠ 28 + s.cfg.netTimeBytes) : settleSoc s = s := if_neg h

theorem settlePrq_tooLong {s : State} (h : s.pos.toNat = 24) (hs : 256 < s.x.size.toNat) :
    settlePrq s = s.raise .sizeOutOfRange := if_pos ⟨h, hs⟩

theorem settlePrq_at {s : State} (hs : s.pos.toNat = 24 → s.x.size.toNat ≤ 256)
    (h : s.pos.toNat = 24 + s.x.size.toNat) : settlePrq s = s.complete := by
  rw [settlePrq, if_neg (fun hh => by have := hs hh.1; omega), if_pos h]

theorem settlePrq_elsewhere {s : State} (hs : s.pos.toNat = 24 → s.x.size.toNat ≤ 256)
    (h : s.pos.toNat ≠ 24 + s.x.size.toNat) : settlePrq s = s := by
  rw [settlePrq, if_neg (fun hh => by have := hs hh.1; omega), if_neg h]

theorem pos_succ_toNat {p : BitVec 9} (h : p.toNat < 511) : (p + 1).toNat = p.toNat + 1 := by
  rw [BitVec.toNat_add]; simp; omega

theorem pos_eq_ofNat {p : BitVec 9} {k : Nat} (h : p.toNat = k) : p = BitVec.ofNat 9 k := by
  subst h; simp

/-- Before the header is complete nothing is settled. -/
theorem settleOf_header (c : MessageType) {s : State} (h : s.pos.toNat < 17) : settleOf c s = s := by
  cases c <;> simp only [settleOf, settleSoc, settlePrq, settleStop] <;> split_ifs <;> first | rfl | omega

@[simp] theorem settleOf_x (c : MessageType) (s : State) : (settleOf c s).x = s.x := by
  rcases settleOf_cases c s with h | h | ⟨k, -, h⟩ <;> simp [h]
@[simp] theorem settleOf_payload (c : MessageType) (s : State) : (settleOf c s).payload = s.payload := by
  rcases settleOf_cases c s with h | h | ⟨k, -, h⟩ <;> simp [h]
@[simp] theorem settleOf_pos (c : MessageType) (s : State) : (settleOf c s).pos = s.pos := by
  rcases settleOf_cases c s with h | h | ⟨k, -, h⟩ <;> simp [h]
@[simp] theorem settleOf_resValid (c : MessageType) (s : State) : (settleOf c s).resValid = s.resValid := by
  rcases settleOf_cases c s with h | h | ⟨k, -, h⟩ <;> simp [h]
@[simp] theorem settleOf_cfg (c : MessageType) (s : State) : (settleOf c s).cfg = s.cfg := by
  rcases settleOf_cases c s with h | h | ⟨k, -, h⟩ <;> simp [h]
@[simp] theorem settleOf_inputs (c : MessageType) (s : State) : (settleOf c s).inputs = s.inputs := by
  rcases settleOf_cases c s with h | h | ⟨k, -, h⟩ <;> simp [h]

/-- A beat in PARSE, in full. -/
theorem classEdge_parse {s : State} (c : MessageType) {d : Byte} {l : Bool} (h : s.event = .beat d l)
    (hp : s.phase = .parse) :
    classEdge c s = (if l then (settleOf c (storeOf c d s).advance).boundary
      else settleOf c (storeOf c d s).advance).nextEdge := by
  rw [classEdge_beat c h]; cases l <;> simp [State.beat, hp]

/-- A beat in PARSE that settles nothing. -/
theorem classEdge_stays {s : State} (c : MessageType) {d : Byte} {l : Bool} (h : s.event = .beat d l)
    (hp : s.phase = .parse) (hs : settleOf c (storeOf c d s).advance = (storeOf c d s).advance) :
    classEdge c s = { storeOf c d s with pos := s.pos + 1, st := if l then 1 else s.st, resValid := l,
                                         inputs := s.inputs.tail } := by
  have hv := (State.of_event_beat h).2.1
  rw [classEdge_parse c h hp, hs]
  cases l
  · simp only [State.nextEdge, State.advance, if_false, Bool.false_eq_true, storeOf_pos, storeOf_inputs]
    rw [← storeOf_st c d s, ← hv, ← storeOf_resValid c d s]
  · simp [State.nextEdge, State.advance, State.boundary, hp, State.raise, errorCode]

/-- A beat in PARSE that decides the frame with code `k`. -/
theorem classEdge_decides {s : State} (c : MessageType) {d : Byte} {l : Bool} (k : BitVec 3) (h : s.event = .beat d l)
    (hp : s.phase = .parse)
    (hs : settleOf c (storeOf c d s).advance = { (storeOf c d s).advance with st := k, phase := .drain }) :
    classEdge c s = { storeOf c d s with pos := s.pos + 1, st := k, phase := .drain, resValid := l,
                                         inputs := s.inputs.tail } := by
  have hv := (State.of_event_beat h).2.1
  rw [classEdge_parse c h hp, hs]
  cases l
  · simp [State.nextEdge, State.advance, hv]
  · simp [State.nextEdge, State.advance, State.boundary]

/-- A beat in DRAIN, in full. -/
theorem classEdge_drain {s : State} (c : MessageType) {d : Byte} {l : Bool} (h : s.event = .beat d l)
    (hp : s.phase = .drain) : classEdge c s = { s with resValid := l, inputs := s.inputs.tail } := by
  rw [classEdge_beat c h, State.beat_drain _ _ _ _ hp (State.of_event_beat h).2.1]; rfl

/-- What a beat in PARSE leaves in the registers and the buffer is what its store leaves there. -/
theorem classEdge_parse_stores {s : State} (c : MessageType) {d : Byte} {l : Bool} (h : s.event = .beat d l)
    (hp : s.phase = .parse) :
    (classEdge c s).x = (storeOf c d s).x ∧ (classEdge c s).payload = (storeOf c d s).payload := by
  have hb : ∀ u : State, u.boundary.x = u.x ∧ u.boundary.payload = u.payload := by
    intro u; unfold State.boundary; split <;> exact ⟨rfl, rfl⟩
  rw [classEdge_parse c h hp]
  cases l
  · exact ⟨settleOf_x _ _, settleOf_payload _ _⟩
  · exact ⟨(hb _).1.trans (settleOf_x _ _), (hb _).2.trans (settleOf_payload _ _)⟩

/-- The tag in effect at a beat is what `msg_type` holds after the beat's store. -/
theorem storeOf_msgType {s : State} {d : Byte} {l : Bool} (h : s.event = .beat d l) (hp : s.phase = .parse) :
    (storeOf (classify s.tagInEffect) d s).x.msgType = s.tagInEffect := by
  by_cases hlo : s.pos.toNat < 17
  · rw [storeOf_header _ _ hlo]
    simp [storeHeader, headerStore_msgType, State.tagInEffect, h, hp]
  · have hge : 17 ≤ s.pos.toNat := by omega
    have ht : s.tagInEffect = s.x.msgType := by simp [State.tagInEffect, h]; omega
    rw [ht]
    cases classify s.x.msgType <;>
      simp [storeOf, storeHeader, storeSoc, storePrq, socStore_headerRegs (W := s.cfg.netTimeBytes) hge d s.x,
        prqStore_headerRegs hge d s.x, headerStore_of_ge hge]

/-- Every edge reads one entry of the wires. -/
@[simp] theorem classEdge_inputs (c : MessageType) (s : State) : (classEdge c s).inputs = s.inputs.tail := by
  rcases h : s.event with _ | _ | ⟨d, l⟩ | _
  · rw [classEdge_reset c h]; rfl
  · rw [classEdge_take c h]; rfl
  · rcases hp : s.phase
    · rw [classEdge_parse c h hp]; split <;> simp
    · rw [classEdge_drain c h hp]
  · rw [classEdge_hold c h]; rfl

@[simp] theorem classEdge_cfg (c : MessageType) (s : State) : (classEdge c s).cfg = s.cfg := by
  rcases h : s.event with _ | _ | ⟨d, l⟩ | _
  · rw [classEdge_reset c h]; rfl
  · rw [classEdge_take c h]; rfl
  · rcases hp : s.phase
    · rw [classEdge_parse c h hp]; split <;> simp
    · rw [classEdge_drain c h hp]
  · rw [classEdge_hold c h]; rfl

/-! ### Runs -/

theorem run_zero (s : State) : Sys2Proof.core.run 0 s = .next s := rfl

/-- `n` edges, as a function: no edge stops the machine. -/
def after : Nat → State → State
  | 0, s => s
  | n + 1, s => after n (classEdge (classify s.tagInEffect) s)

theorem core_run_succ (M : Host.Core) (n : Nat) (s : M.State) {t : M.State} (h : M.step s = .next t) :
    M.run (n + 1) s = M.run n t := by rw [Host.Core.run, h]

theorem run_eq_after (n : Nat) (s : State) : Sys2Proof.core.run n s = .next (after n s) := by
  induction n generalizing s with
  | zero => rfl
  | succ n ih =>
    have h : Sys2Proof.core.step s = .next (classEdge (classify s.tagInEffect) s) := step_eq s
    exact (core_run_succ Sys2Proof.core n s h).trans (ih _)

theorem after_add (m n : Nat) (s : State) : after (m + n) s = after n (after m s) := by
  induction m generalizing s with
  | zero => simp [after]
  | succ m ih => rw [Nat.succ_add, after, ih, after]

end Sys2Proof.Machine
end

