-- ==== Sys2Proof/Tests/Slice0.lean ====
section
/-! SUPPORT. Tests of the model. Expected values come from the spec: the tag map of 30_encoding.md R66, and the vectors
and programs of 95_test_vectors.md (named in each comment). The last part shows, for every obligation that has hypotheses,
a state and operands that meet them. -/

namespace Sys2Proof.Tests

open Sys2Proof Sys2Proof.Machine

set_option maxRecDepth 20000

/-- `h17(t)`, the standard header of 95_test_vectors.md. -/
def h17 (t : Byte) : List Byte :=
  [0x01, 0x11, 0x1E, 0x00, 0x00, 0x01, 0x02, 0x12, 0x34, 0x56, 0x78, 0x9A, 0x88, 0xAB, t, 0xFF, 0xF0]

/-- Frame `S` of part 2.2. -/
def frameS : List Byte := h17 0x01 ++ [0x00, 0xC0, 0x00, 0x5A, 0x08, 0x07, 0x06, 0x05, 0x04, 0x03, 0x02, 0x01]

/-- `Q(size, pl)` of part 2.3, `size` as its two bytes. -/
def frameQ (lo hi : Byte) (pl : List Byte) : List Byte := h17 0x03 ++ [0, 0, 0, 0, 0, lo, hi] ++ pl

/-- Frame P1 of part 2.4. -/
def frameP1 : List Byte := h17 0x04 ++ [0x6D, 0x10, 0x09, 0x20, 0x00, 0x02, 0x00, 0xAA, 0xBB]

/-- A parser at offset `p` of a frame with tag `t`, about to accept the byte `d`. -/
def beatAt (p : BitVec 9) (t d : Byte) (l : Bool) : State :=
  { State.reset with x.msgType := t, pos := p, inputs := [Wires.offer d l] }

/-- A question about the next state; a step that stops answers no. -/
def nextHas (o : Host.Outcome State Fault Refusal) (q : State → Bool) : Bool :=
  match o with
  | .next t => q t
  | .fault r => nomatch r
  | .refused _ => false

/-! ### Well-formedness: one ill-formed envelope per check -/

def goodHeader (t : Byte) (c : MessageType) : Header :=
  { dstMac := #v[1, 2, 3, 4, 5, 6], srcMac := #v[7, 8, 9, 10, 11, 12], etherType := 0x88AB, messageType := t, cls := c,
    dstNodeId := 0xFF, srcNodeId := 0xF0 }

def socBody (nt : BitVec 64) : SocBody :=
  { reserved1 := 0, flag1 := 0xC0, flag2 := 0, netTime := nt, relativeTime := 0x0102030405060708 }

def prqBody (n : BitVec 16) (pl : List Byte) : PrqBody :=
  { first := 0, flag1 := 0x21, flag2 := 0, pdoVersion := 0x10, reserved2 := 0, size := n, payload := pl }

def envelopeOf (t : Byte) (c : MessageType) (b : Body) : Envelope := { header := goodHeader t c, body := b, consumed := 0 }

theorem test_wf_accepts_soc : (envelopeOf 0x01 .soc (.soc (socBody 0x5A))).wf .standard = true := by decide
theorem test_wf_accepts_preq : (envelopeOf 0x03 .preq (.preq (prqBody 4 [1, 2, 3, 4]))).wf .standard = true := by decide
theorem test_wf_accepts_full_pres :
    (envelopeOf 0x04 .pres (.pres (prqBody 256 (List.replicate 256 0x11)))).wf .standard = true := by decide
theorem test_wf_refuses_other_tag : (envelopeOf 0x03 .preq (.soc (socBody 0x5A))).wf .standard = false := by decide
theorem test_wf_refuses_other_class : (envelopeOf 0x03 .pres (.preq (prqBody 0 []))).wf .standard = false := by decide
theorem test_wf_refuses_long_size :
    (envelopeOf 0x03 .preq (.preq (prqBody 257 (List.replicate 257 0)))).wf .standard = false := by decide
theorem test_wf_refuses_short_payload :
    (envelopeOf 0x04 .pres (.pres (prqBody 4 [1, 2, 3]))).wf .standard = false := by decide
theorem test_wf_refuses_wide_netTime : (envelopeOf 0x01 .soc (.soc (socBody 0x100))).wf .standard = false := by decide

/-! ### Decoding: one word of every row, its bits written out from the match and mask of the table -/

theorem test_decode_nonpowerlink : decodeTableWord 8 0b00000000 = some .nonpowerlink := by decide
theorem test_decode_soc : decodeTableWord 8 0b00000001 = some .soc := by decide
theorem test_decode_preq : decodeTableWord 8 0b00000011 = some .preq := by decide
theorem test_decode_pres : decodeTableWord 8 0b00000100 = some .pres := by decide
theorem test_decode_soa : decodeTableWord 8 0b00000101 = some .soa := by decide
theorem test_decode_asnd : decodeTableWord 8 0b00000110 = some .asnd := by decide
theorem test_decode_amni : decodeTableWord 8 0b00000111 = some .amni := by decide
theorem test_decode_ainv : decodeTableWord 8 0b00001101 = some .ainv := by decide
theorem test_decode_unknown1 : decodeTableWord 8 0b00000010 = some .unknown1 := by decide
theorem test_decode_unknown2 : decodeTableWord 8 0b00001011 = some (.unknown2 0b11) := by decide
theorem test_decode_unknown3 : decodeTableWord 8 0b00001100 = some .unknown3 := by decide
theorem test_decode_unknown4 : decodeTableWord 8 0b00001110 = some (.unknown4 0b0) := by decide
theorem test_decode_unknown5 : decodeTableWord 8 0b00011001 = some (.unknown5 0b1001) := by decide
theorem test_decode_unknown6 : decodeTableWord 8 0b00110001 = some (.unknown6 0b10001) := by decide
theorem test_decode_unknown7 : decodeTableWord 8 0b01000001 = some (.unknown7 0b000001) := by decide
theorem test_decode_unknown8 : decodeTableWord 8 0b10000001 = some (.unknown8 0b0000001) := by decide

/-- R97: 16 bytes are no instruction yet, though the tag is there. -/
theorem test_decode_short : decodeInstr ((h17 0x02).take 16) = .error .truncatedBuffer := by decide
theorem test_decode_frame : decodeInstr frameP1 = .ok .pres := by decide

/-! ### The function level -/

/-- The status code and `consumed` of a frame. -/
def outcome (B : List Byte) : BitVec 3 × Nat :=
  (resultStatus (decodeFrame .standard B), resultConsumed B.length (decodeFrame .standard B))

/-- H5. -/
theorem test_frame_H5 : decodeFrame .standard (h17 0x02) = .unknownMessageType
    { dstMac := #v[0x01, 0x11, 0x1E, 0x00, 0x00, 0x01], srcMac := #v[0x02, 0x12, 0x34, 0x56, 0x78, 0x9A],
      etherType := 0x88AB, messageType := 0x02, cls := .unknown, dstNodeId := 0xFF, srcNodeId := 0xF0 } := by decide

/-- C1. -/
theorem test_frame_C1 : (match decodeFrame .standard frameS with
    | .ok e => e.body == .soc { reserved1 := 0x00, flag1 := 0xC0, flag2 := 0x00, netTime := 0x5A,
                                relativeTime := 0x0102030405060708 } && e.consumed == 29
    | _ => false) = true := by decide

/-- P1. -/
theorem test_frame_P1 : (match decodeFrame .standard frameP1 with
    | .ok e => e.body == .pres { first := 0x6D, flag1 := 0x10, flag2 := 0x09, pdoVersion := 0x20, reserved2 := 0x00,
                                 size := 2, payload := [0xAA, 0xBB] } && e.consumed == 26
    | _ => false) = true := by decide

/-- H1, H4, H6, H14, H18. -/
theorem test_outcomes_header : outcome [0x01] = (1, 1) ∧ outcome ((h17 0x02).take 16) = (1, 16) ∧
    outcome (h17 0x00) = (4, 17) ∧ outcome (h17 0x0F) = (2, 17) ∧
    outcome (h17 0x05 ++ List.replicate 10 0) = (4, 17) := by decide

/-- C2, C3, C5. -/
theorem test_outcomes_soc : outcome (frameS.take 28) = (1, 28) ∧ outcome (h17 0x01) = (1, 17) ∧
    outcome (frameS ++ List.replicate 31 0) = (0, 29) := by decide

/-- Q1, Q3, Q4, Q6, Q10, Q12, Q14, P4. -/
theorem test_outcomes_prq : outcome (frameQ 4 0 [1, 2, 3, 4]) = (0, 28) ∧
    outcome ((frameQ 4 0 [1, 2, 3, 4]).take 23) = (1, 23) ∧ outcome (frameQ 0 0 []) = (0, 24) ∧
    outcome (frameQ 4 0 [1, 2, 3]) = (1, 27) ∧ outcome (frameQ 1 1 []) = (3, 24) ∧
    outcome (frameQ 0x2C 1 (List.replicate 10 0x55)) = (3, 24) ∧ outcome (frameQ 1 0 [0x7E]) = (0, 25) ∧
    outcome (h17 0x04 ++ [0x6D, 0x10, 0x09, 0x20, 0x00, 0x01, 0x01]) = (3, 24) := by decide

/-- Q7, Q8: a full payload, and one byte short of it. -/
theorem test_outcomes_full : outcome (frameQ 0 1 (List.replicate 256 0x11)) = (0, 280) ∧
    outcome (frameQ 0 1 (List.replicate 255 0x11)) = (1, 279) := by decide

/-- S1, the Soc example: the encoded bytes. -/
theorem test_encode_soc : encodeFrame .standard
    { header := { dstMac := #v[0x01, 0x11, 0x1E, 0x00, 0x00, 0x01], srcMac := #v[0x02, 0x12, 0x34, 0x56, 0x78, 0x9A],
                  etherType := 0x88AB, messageType := 0x01, cls := .soc, dstNodeId := 0xFF, srcNodeId := 0xF0 },
      body := .soc (socBody 0x5A), consumed := 0 } = frameS := by decide

/-! ### One edge -/

/-- Part 2.1, intermediate value: `ether_type` 0x1234 becomes 0x8834 after the beat of offset 12. -/
theorem test_etherType_first_byte : nextHas (step { beatAt 12 0 0x88 false with x.etherType := 0x1234 })
    (fun t => t.x.etherType == 0x8834 && t.pos == 13) = true := by decide
theorem test_etherType_second_byte : nextHas (step { beatAt 13 0 0xAB false with x.etherType := 0x8834 })
    (fun t => t.x.etherType == 0x88AB && t.pos == 14) = true := by decide

/-- The tag beat runs under the tag it brings, not under the stored one. -/
theorem test_tag_beat : nextHas (step (beatAt 14 0x03 0x01 false)) (fun t => t.x.msgType == 0x01 && t.clsPort == 1) = true := by
  decide

/-- H6, H7, H8, H9, H10: the beat that completes the header of a class with no body decoder. -/
def stopsWith (i : Instr) (code : BitVec 3) : Bool :=
  nextHas (exec i (beatAt 16 (encodeTag i) 0xF0 false)) fun t =>
    t.st == code && t.phase == .drain && t.pos == 17 && t.x.srcNode == 0xF0 && !t.resValid

theorem test_nonpowerlink_stops : stopsWith .nonpowerlink 4 = true := by decide
theorem test_soa_stops : stopsWith .soa 4 = true := by decide
theorem test_asnd_stops : stopsWith .asnd 4 = true := by decide
theorem test_amni_stops : stopsWith .amni 4 = true := by decide
theorem test_ainv_stops : stopsWith .ainv 4 = true := by decide

/-- H5, H11, H12, H13, H15 and others: the beat that completes the header of an Unknown frame. -/
theorem test_unknown1_stops : stopsWith .unknown1 2 = true := by decide
theorem test_unknown2_stops : stopsWith (.unknown2 0) 2 = true := by decide
theorem test_unknown3_stops : stopsWith .unknown3 2 = true := by decide
theorem test_unknown4_stops : stopsWith (.unknown4 0) 2 = true := by decide
theorem test_unknown5_stops : stopsWith (.unknown5 1) 2 = true := by decide
theorem test_unknown6_stops : stopsWith (.unknown6 0) 2 = true := by decide
theorem test_unknown7_stops : stopsWith (.unknown7 0x3F) 2 = true := by decide
theorem test_unknown8_stops : stopsWith (.unknown8 1) 2 = true := by decide

/-- C1: the last byte of a Soc frame of exactly 29 bytes completes and ends it in one beat. -/
theorem test_soc_last_byte : nextHas (exec .soc { beatAt 28 0x01 0x01 true with x.relTime := 0x0002030405060708 })
    (fun t => t.x.relTime == 0x0102030405060708 && t.st == 0 && t.phase == .drain && t.pos == 29 && t.resValid) = true := by
  decide
/-- C2: one byte earlier it is truncated. -/
theorem test_soc_truncated : nextHas (exec .soc (beatAt 27 0x01 0x02 true))
    (fun t => t.st == 1 && t.phase == .parse && t.pos == 28 && t.resValid) = true := by decide

/-- Q10: `size` 257 is out of range, and is taken little-endian. -/
theorem test_preq_oversize : nextHas (exec .preq { beatAt 23 0x03 0x01 false with x.size := 0x0001 })
    (fun t => t.x.size == 0x0101 && t.st == 3 && t.phase == .drain && t.pos == 24) = true := by decide
/-- Q1: the last payload byte goes to cell 3 and completes. -/
theorem test_preq_last_byte : nextHas (exec .preq { beatAt 27 0x03 0x04 true with x.size := 4 })
    (fun t => t.payload.read 3 == some 0x04 && t.payload.read 4 == none && t.st == 0 && t.pos == 28 && t.resValid) = true := by
  decide
/-- Program 2, frame B: an empty payload completes at the size byte. -/
theorem test_pres_empty : nextHas (exec .pres (beatAt 23 0x04 0x00 true))
    (fun t => t.x.size == 0 && t.st == 0 && t.phase == .drain && t.pos == 24 && t.resValid) = true := by decide
/-- Q7: the byte at offset 279 goes to cell 255. -/
theorem test_pres_full : nextHas (exec .pres { beatAt 279 0x04 0xFF true with x.size := 256 })
    (fun t => t.payload.read 255 == some 0xFF && t.st == 0 && t.pos == 280) = true := by decide

/-- Program 5, edges 19 and 21: a byte offered while a result is pending is not accepted; then the Take. -/
def pending (w : Wires) : State :=
  { State.reset with pos := 17, phase := .drain, st := 2, resValid := true, x.msgType := 0x02, inputs := [w] }

theorem test_hold : nextHas (step (pending (Wires.offer 0x01 false)))
    (fun t => t.pos == 17 && t.st == 2 && t.resValid && t.clsPort == 0xF) = true := by decide
theorem test_take : nextHas (step (pending { Wires.offer 0x01 false with resReady := true }))
    (fun t => t.pos == 0 && t.st == 0 && t.phase == .parse && !t.resValid && t.x.msgType == 0x02) = true := by decide

/-- Program 4: Reset has priority and clears the registers. -/
theorem test_reset : nextHas (step { beatAt 20 0x01 0x5A true with inputs := [{ Wires.offer 0x5A true with rst := true }] })
    (fun t => t == State.reset) = true := by decide

/-- The interface to the host: a table word placed by `withFetchWord` is fetched and run by the next step. -/
theorem test_fetchWord : nextHas (step (State.reset.withFetchWord 8 0x0D))
    (fun t => t.x.msgType == 0x0D && t.pos == 15 && t.clsPort == 0xD) = true := by decide

/-! ### Witnesses: the hypotheses of each obligation are met, clause by clause at the ends of its range -/

/-- A beat accepted in PARSE at offset `p`. -/
def atBeat (s : State) (d : Byte) (l : Bool) (p : Nat) : Bool :=
  s.event == .beat d l && s.phase == .parse && s.pos.toNat == p

theorem witness_EveryTagSelectsExactlyOneRow :
    17 ≤ (h17 0x01).length ∧ 17 ≤ frameS.length ∧ byteAt (h17 0x01) 14 = byteAt frameS 14 := by decide

/-- One buffer for each length, the range ending at the end of the buffer; a byte before, in and after it. -/
theorem witness_ByteOrderUtilities : 15 + 2 ≤ (h17 0).length ∧ 13 + 4 ≤ (h17 0).length ∧ 9 + 8 ≤ (h17 0).length ∧
    0 < 8 ∧ 7 < 8 ∧ 15 + [(1 : Byte), 2].length ≤ (h17 0).length ∧ 1 < [(1 : Byte), 2].length ∧
    (14 < 15 ∨ 15 + [(1 : Byte), 2].length ≤ 14) ∧ (17 < 15 ∨ 15 + [(1 : Byte), 2].length ≤ 17) := by decide

theorem witness_LaneWriteTouchesOneByte : 0 < 16 ∧ 15 < 16 ∧ (8 * 1 ≤ 15 ∧ 15 < 8 * 1 + 8) ∧ ¬8 * 1 ≤ 7 := by decide

theorem witness_EndianMuxAssemblesFields : 15 + 2 ≤ (h17 0).length ∧ 9 + 8 ≤ (h17 0).length ∧
    (1 ≤ 8 ∧ 16 + 1 ≤ (h17 0).length ∧ (0xFF : BitVec 64).toNat < 2 ^ (8 * 1)) ∧
    (8 ≤ 8 ∧ 9 + 8 ≤ (h17 0).length ∧ (0xFFFFFFFFFFFFFFFF : BitVec 64).toNat < 2 ^ (8 * 8)) := by decide

/-- A well-formed envelope of each body, payloads empty and full. -/
theorem witness_EncodedFrameLength : (envelopeOf 0x01 .soc (.soc (socBody 0xFF))).wf .standard = true ∧
    (envelopeOf 0x03 .preq (.preq (prqBody 0 []))).wf .standard = true ∧
    (envelopeOf 0x04 .pres (.pres (prqBody 256 (List.replicate 256 1)))).wf .standard = true := by decide

theorem witness_EncodedFrameRoundTrip : (envelopeOf 0x03 .preq (.preq (prqBody 0 []))).wf .standard = true ∧
    decodeFrame .standard frameP1 = .ok
      { header := { dstMac := #v[0x01, 0x11, 0x1E, 0x00, 0x00, 0x01], srcMac := #v[0x02, 0x12, 0x34, 0x56, 0x78, 0x9A],
                    etherType := 0x88AB, messageType := 0x04, cls := .pres, dstNodeId := 0xFF, srcNodeId := 0xF0 },
        body := .pres { first := 0x6D, flag1 := 0x10, flag2 := 0x09, pdoVersion := 0x20, reserved2 := 0x00, size := 2,
                        payload := [0xAA, 0xBB] },
        consumed := 26 } := by decide

theorem witness_ShortFrameIsTruncated : ([] : List Byte).length < 17 ∧ ((h17 0x02).take 16).length < 17 ∧
    (atBeat (beatAt 0 0 0x01 true) 0x01 true 0 = true ∧ 0 + 1 < 17) ∧
    (atBeat (beatAt 15 0x02 0xFF true) 0xFF true 15 = true ∧ 15 + 1 < 17) := by decide

theorem witness_EdgeEventFollowsThePriority : (pending Wires.takes).inputs = Wires.takes :: [] ∧
    State.reset.inputs = [] ∧ (pending Wires.resets).event = .reset ∧ (pending Wires.takes).event = .take ∧
    (beatAt 3 0 0x55 true).event = .beat 0x55 true ∧ (pending Wires.idle).event = .hold ∧ State.reset.event = .hold := by
  decide

/-- A byte is offered while a result is pending, and offered again at the next edge. -/
theorem witness_BytesMoveOnlyWhenReady :
    let s := { pending (Wires.offer 0x01 false) with inputs := [Wires.offer 0x01 false, Wires.offer 0x01 false] }
    s.resValid = true ∧ s.wires.rst = false ∧ s.wires.inValid = true ∧ s.offerHeld := by decide

/-- The same with the consumer taking the result at this edge (program 5, edge 21). -/
theorem witness_BytesMoveOnlyWhenReady_take :
    let s := { pending Wires.takes with
               inputs := [{ Wires.offer 0x01 false with resReady := true }, Wires.offer 0x01 false] }
    s.resValid = true ∧ s.wires.rst = false ∧ s.wires.inValid = true ∧ s.offerHeld ∧ s.wires.resReady = true := by decide

theorem witness_StepRunsTheFetchedInstruction : atBeat (beatAt 14 0x03 0x01 false) 0x01 false 14 = true ∧
    atBeat (beatAt 13 0x03 0x01 false) 0x01 false 13 = true ∧ (beatAt 15 0x03 0x01 true).pos.toNat ≠ 14 := by decide

/-- The second clause of StepRunsTheFetchedInstruction, at offset 15. -/
theorem witness_StepRunsTheFetchedInstruction_stored : ∀ d l, (beatAt 15 0x03 0x01 true).event = .beat d l →
    (beatAt 15 0x03 0x01 true).phase = .parse → (beatAt 15 0x03 0x01 true).pos.toNat ≠ 14 :=
  fun _ _ _ _ => by decide

theorem witness_ResetStateHoldsTheSpecsValues : (([] : List Wires).headD Wires.idle).rst = false ∧
    ([Wires.offer 0x01 true].headD Wires.idle).rst = false := by decide

theorem witness_ResetEdgeWritesResetValues : (pending Wires.resets).wires.rst = true := by decide

theorem witness_TakeReopensTheInput : (pending Wires.takes).wires.rst = false ∧ (pending Wires.takes).resValid = true ∧
    (pending Wires.takes).wires.resReady = true := by decide

theorem witness_HoldChangesNothing : (pending Wires.idle).wires.rst = false ∧
    ((pending Wires.idle).resValid = true ∧ (pending Wires.idle).wires.resReady = false) ∧
    State.reset.wires.rst = false ∧ (State.reset.resValid = false ∧ State.reset.wires.inValid = false) := by decide

/-- A decided frame that goes on. -/
def draining (d : Byte) (l : Bool) : State := { beatAt 17 0x02 d l with phase := .drain, st := 2 }

theorem witness_DrainingDiscardsBytes : (draining 0x55 false).event = .beat 0x55 false ∧
    (draining 0x55 true).event = .beat 0x55 true ∧ (draining 0x55 true).phase = .drain := by decide

theorem draining_Inv : (draining 0x55 true).Inv where
  payload_wf := Memory.wf_nil
  net_time := by decide
  parsing h := nomatch h
  draining _ := .inr (.inr (.inl ⟨rfl, by decide, rfl⟩))
  posted h := nomatch h

theorem firstBeat_Inv : (beatAt 0 0 0x01 false).Inv where
  payload_wf := Memory.wf_nil
  net_time := by decide
  parsing _ := ⟨rfl, .inl (by decide)⟩
  draining h := nomatch h
  posted h := nomatch h

/-- A beat in PARSE in a state of the invariant, at the first and the last offset of a frame, and one in DRAIN. -/
theorem witness_OffsetCountsParsedBytes : (beatAt 0 0 0x01 false).event = .beat 0x01 false ∧
    (beatAt 0 0 0x01 false).phase = .parse ∧ (draining 0x55 true).phase = .drain ∧
    (beatAt 279 0x03 0x01 true).event = .beat 0x01 true := by decide

theorem witness_OffsetCountsParsedBytes_last : ({ beatAt 279 0x03 0x01 true with x.size := 256, x.msgType := 0x03 } : State).Inv where
  payload_wf := Memory.wf_nil
  net_time := by decide
  parsing _ := ⟨rfl, .inr (.inr ⟨by decide, by decide⟩)⟩
  draining h := nomatch h
  posted h := nomatch h

theorem witness_FrameBoundaryPostsTheResult : (beatAt 5 0 0x01 true).event = .beat 0x01 true ∧
    (draining 0x55 true).event = .beat 0x55 true := by decide

theorem witness_ResultStaysUntilTaken : (pending Wires.idle).resValid = true ∧
    nextHas (step (pending Wires.idle)) (fun t => t.resValid) = true := by decide

/-- An error of each kind, entered from code 0. -/
theorem witness_ErrorsAreEnteredInTheirBeat :
    (beatAt 16 0x02 0 false).st = 0 ∧ nextHas (step (beatAt 16 0x02 0 false)) (fun t => t.st == 2) = true ∧
    nextHas (step (beatAt 16 0x0D 0 false)) (fun t => t.st == 4) = true ∧
    nextHas (step (beatAt 23 0x04 0x02 false)) (fun t => t.st == 3) = true ∧
    nextHas (step (beatAt 0 0 0 true)) (fun t => t.st == 1) = true := by decide

/-- The first and the last offset of each clause. -/
theorem witness_HeaderBeatsStoreTheirBytes :
    atBeat (beatAt 0 0 1 false) 1 false 0 = true ∧ atBeat (beatAt 5 0 1 true) 1 true 5 = true ∧
    atBeat (beatAt 6 0 1 false) 1 false (6 + 0) = true ∧ atBeat (beatAt 11 0 1 true) 1 true (6 + 5) = true ∧
    atBeat (beatAt 12 0 1 false) 1 false 12 = true ∧ atBeat (beatAt 13 0 1 false) 1 false 13 = true ∧
    atBeat (beatAt 14 0 1 true) 1 true 14 = true ∧ atBeat (beatAt 15 0 1 true) 1 true 15 = true := by decide

theorem witness_DispatchAtOffsetSeventeen :
    (atBeat (beatAt 16 0xFF 1 true) 1 true 16 = true ∧ classify (beatAt 16 0xFF 1 true).x.msgType = .unknown) ∧
    isNoBody (classify (beatAt 16 0x00 1 false).x.msgType) ∧ isNoBody (classify (beatAt 16 0x0D 1 false).x.msgType) ∧
    classify (beatAt 16 0x01 1 false).x.msgType = .soc ∧ isPrq (classify (beatAt 16 0x03 1 true).x.msgType) ∧
    isPrq (classify (beatAt 16 0x04 1 true).x.msgType) := by decide

theorem witness_HeaderCompletionPerInstruction : atBeat (beatAt 16 0x01 1 false) 1 false 16 = true ∧
    atBeat (beatAt 16 0x01 1 true) 1 true 16 = true := by decide

theorem witness_SocBodyBeats :
    atBeat (beatAt 17 0x01 1 true) 1 true 17 = true ∧ atBeat (beatAt 18 0x01 1 true) 1 true 18 = true ∧
    atBeat (beatAt 19 0x01 1 true) 1 true 19 = true ∧
    (0 < (beatAt 20 0x01 1 true).cfg.netTimeBytes ∧ atBeat (beatAt 20 0x01 1 true) 1 true (20 + 0) = true) ∧
    atBeat (beatAt 21 0x01 1 true) 1 true (20 + (beatAt 21 0x01 1 true).cfg.netTimeBytes + 0) = true ∧
    atBeat (beatAt 27 0x01 1 true) 1 true (20 + (beatAt 27 0x01 1 true).cfg.netTimeBytes + 6) = true ∧
    atBeat (beatAt 28 0x01 1 true) 1 true (27 + (beatAt 28 0x01 1 true).cfg.netTimeBytes) = true := by decide

/-- The same at W = 8. -/
theorem witness_SocBodyBeats_wide :
    let s := fun p => { beatAt p 0x01 1 true with cfg := { netTimeExtra := 7 } }
    (7 < (s 27).cfg.netTimeBytes ∧ atBeat (s 27) 1 true (20 + 7) = true) ∧
    atBeat (s 28) 1 true (20 + (s 28).cfg.netTimeBytes + 0) = true ∧
    atBeat (s 35) 1 true (27 + (s 35).cfg.netTimeBytes) = true := by decide

theorem witness_PrqFixedPartBeats :
    atBeat (beatAt 17 0x03 1 false) 1 false 17 = true ∧ atBeat (beatAt 18 0x03 1 false) 1 false 18 = true ∧
    atBeat (beatAt 19 0x04 1 true) 1 true 19 = true ∧ atBeat (beatAt 20 0x04 1 true) 1 true 20 = true ∧
    atBeat (beatAt 21 0x04 1 true) 1 true 21 = true ∧ atBeat (beatAt 22 0x04 1 true) 1 true 22 = true := by decide

/-- A size of 257, of 0, of 1 and of 256, each completed by the beat at offset 23. -/
theorem witness_PrqSizeTest :
    let s := fun lo d => { beatAt 23 0x03 d true with x.size := lo }
    atBeat (s 0x01 1) 1 true 23 = true ∧ 256 < ((1 : Byte) ++ (s 0x01 1).x.size.extractLsb' 0 8).toNat ∧
    (0 : Byte) ++ (s 0x00 0).x.size.extractLsb' 0 8 = (0 : BitVec 16) ∧
    (0 : Byte) ++ (s 0x01 0).x.size.extractLsb' 0 8 = (1 : BitVec 16) ∧
    ((1 : Byte) ++ (s 0x00 1).x.size.extractLsb' 0 8).toNat = 256 := by decide

/-- Offsets 24 and 279, completing and not. -/
theorem witness_PrqPayloadBeats :
    let s := fun p n => { beatAt p 0x03 1 true with x.size := n }
    (atBeat (s 24 1) 1 true 24 = true ∧ 24 + 1 = 24 + (s 24 1).x.size.toNat) ∧
    (atBeat (s 24 2) 1 true 24 = true ∧ 24 + 1 ≠ 24 + (s 24 2).x.size.toNat) ∧
    (atBeat (s 279 256) 1 true 279 = true ∧ 279 < 280 ∧ 279 + 1 = 24 + (s 279 256).x.size.toNat) ∧
    279 + 1 ≠ 24 + (s 279 255).x.size.toNat := by decide

theorem witness_PayloadBufferReadsAndWrites : Memory.wf [(0, 1), (255, 2)] ∧ 0 < 256 ∧ 255 < 256 ∧
    (∀ a, Memory.read [(3, 7)] a = Memory.read [(3, 7)] a) := ⟨by decide, by decide, by decide, fun _ => rfl⟩

/-- A payload beat at the first and the last cell, and a beat that stores to no cell. -/
theorem witness_PayloadChangesOnlyAtTheBeatsCell : State.reset.payload.wf ∧
    atBeat (beatAt 24 0x03 1 true) 1 true 24 = true ∧ isPrq Instr.preq.cls ∧ isPrq Instr.pres.cls ∧
    payloadIndex 24 = some 0 ∧ payloadIndex 279 = some 255 ∧ payloadIndex 23 = none ∧
    (atBeat (beatAt 23 0x03 1 true) 1 true 23 = true) := by decide

theorem witness_PayloadChangesOnlyAtTheBeatsCell_none : ∀ d l, (beatAt 23 0x03 1 true).event = .beat d l →
    (beatAt 23 0x03 1 true).phase = .parse → isPrq Instr.preq.cls → payloadIndex (beatAt 23 0x03 1 true).pos.toNat = none :=
  fun _ _ _ _ _ => by decide

theorem witness_FormatsWriteOnlyTheirOwnRegisters : (beatAt 20 0x01 1 false).wires.rst = false ∧
    Instr.preq.cls ≠ .soc ∧ ¬isPrq Instr.soc.cls ∧ ¬isPrq Instr.unknown1.cls ∧ 17 ≤ (beatAt 17 0x01 1 false).pos.toNat ∧
    (beatAt 16 0x01 1 false).pos.toNat < 17 ∧ (draining 1 true).phase = .drain ∧ (draining 1 true).wires.rst = false := by
  decide

theorem witness_FormatsWriteOnlyTheirOwnRegisters_drain : ∀ d l, (draining 1 true).event = .beat d l →
    (draining 1 true).phase = .drain := fun _ _ _ => rfl

theorem witness_ClassOutputIsTheCode : classify (beatAt 0 0x0D 0 false).x.msgType ≠ .unknown := by decide

/-! Whole frames. Each is delivered beat by beat from the reset state, which is where a frame starts. -/

theorem atFrameStart_reset : State.reset.atFrameStart := ⟨rfl, rfl, rfl⟩

theorem netTimeInWidth_reset : State.reset.netTimeInWidth := by decide

theorem witness_HeaderFieldsReachTheirRegisters :
    State.reset.atFrameStart ∧ 17 ≤ (h17 0x05).length ∧ Delivers (frameBeats (h17 0x05)) (h17 0x05) :=
  ⟨atFrameStart_reset, by decide, delivers_frameBeats (by decide)⟩

/-- An idle edge before the frame is allowed. -/
theorem witness_HeaderFieldsReachTheirRegisters_idle : Delivers (Wires.idle :: frameBeats (h17 0x05)) (h17 0x05) :=
  delivers_idle rfl rfl (delivers_frameBeats (by decide))

/-- H7, H8 and a frame of 16 bytes. -/
theorem witness_NoBodyFrameRun : State.reset.atFrameStart ∧
    (h17 0x05 ≠ [] ∧ Delivers (frameBeats (h17 0x05)) (h17 0x05) ∧ isNoBody (classify (byteAt (h17 0x05) 14)) ∧
      17 ≤ (h17 0x05).length) ∧
    (Delivers (frameBeats ((h17 0x06).take 16)) ((h17 0x06).take 16) ∧
      isNoBody (classify (byteAt ((h17 0x06).take 16) 14)) ∧ ((h17 0x06).take 16).length < 17) :=
  ⟨atFrameStart_reset, ⟨by decide, delivers_frameBeats (by decide), by decide, by decide⟩,
    delivers_frameBeats (by decide), by decide, by decide⟩

/-- H5 and H4. -/
theorem witness_UnknownFrameRun : State.reset.atFrameStart ∧
    (h17 0x02 ≠ [] ∧ Delivers (frameBeats (h17 0x02)) (h17 0x02) ∧ classify (byteAt (h17 0x02) 14) = .unknown ∧
      17 ≤ (h17 0x02).length) ∧
    (Delivers (frameBeats ((h17 0x02).take 16)) ((h17 0x02).take 16) ∧
      classify (byteAt ((h17 0x02).take 16) 14) = .unknown ∧ ((h17 0x02).take 16).length < 17) :=
  ⟨atFrameStart_reset, ⟨by decide, delivers_frameBeats (by decide), by decide, by decide⟩,
    delivers_frameBeats (by decide), by decide, by decide⟩

/-- C1, C2 and H1. -/
theorem witness_SocFrameRun : State.reset.atFrameStart ∧ State.reset.netTimeInWidth ∧
    (frameS ≠ [] ∧ Delivers (frameBeats frameS) frameS ∧ (15 ≤ frameS.length → byteAt frameS 14 = 0x01) ∧
      28 + State.reset.cfg.netTimeBytes ≤ frameS.length) ∧
    (Delivers (frameBeats (frameS.take 28)) (frameS.take 28) ∧ byteAt (frameS.take 28) 14 = 0x01 ∧
      (frameS.take 28).length < 28 + State.reset.cfg.netTimeBytes) ∧
    (15 ≤ [(0x01 : Byte)].length → byteAt [0x01] 14 = 0x01) :=
  ⟨atFrameStart_reset, netTimeInWidth_reset,
    ⟨by decide, delivers_frameBeats (by decide), by decide, by decide⟩,
    ⟨delivers_frameBeats (by decide), by decide, by decide⟩, by decide⟩

/-- What PreqAndPresFrameRun asks of a frame. -/
def prqPremises (B : List Byte) : Prop :=
  B ≠ [] ∧ Delivers (frameBeats B) B ∧ (15 ≤ B.length → byteAt B 14 = 0x03 ∨ byteAt B 14 = 0x04)

theorem prqPremises_of {B : List Byte} (h : B ≠ [])
    (ht : 15 ≤ B.length → byteAt B 14 = 0x03 ∨ byteAt B 14 = 0x04) : prqPremises B := ⟨h, delivers_frameBeats h, ht⟩

/-- Q3, Q10, Q6, Q4, Q7 and P1: one frame for each outcome, sizes 0 and 256 included. -/
theorem witness_PreqAndPresFrameRun : State.reset.atFrameStart ∧
    (prqPremises (frameQ 4 0 []) ∧ (readLE16 (frameQ 4 0 []) 22).toNat = 4) ∧
    (prqPremises ((frameQ 4 0 []).take 23) ∧ ((frameQ 4 0 []).take 23).length < 24) ∧
    (prqPremises (frameQ 1 1 []) ∧ 24 ≤ (frameQ 1 1 []).length ∧ 256 < (readLE16 (frameQ 1 1 []) 22).toNat) ∧
    (prqPremises (frameQ 4 0 [1, 2, 3]) ∧ 24 ≤ (frameQ 4 0 [1, 2, 3]).length ∧
      (frameQ 4 0 [1, 2, 3]).length < 24 + (readLE16 (frameQ 4 0 [1, 2, 3]) 22).toNat) ∧
    (prqPremises (frameQ 0 0 []) ∧ 24 + (readLE16 (frameQ 0 0 []) 22).toNat = (frameQ 0 0 []).length) ∧
    (prqPremises (frameQ 0 1 (List.replicate 256 0x11)) ∧
      (readLE16 (frameQ 0 1 (List.replicate 256 0x11)) 22).toNat = 256 ∧
      (frameQ 0 1 (List.replicate 256 0x11)).length = 280) ∧
    (prqPremises frameP1 ∧ 24 + (readLE16 frameP1 22).toNat ≤ frameP1.length) :=
  ⟨atFrameStart_reset, ⟨prqPremises_of (by decide) (by decide), by decide⟩,
    ⟨prqPremises_of (by decide) (by decide), by decide⟩, ⟨prqPremises_of (by decide) (by decide), by decide, by decide⟩,
    ⟨prqPremises_of (by decide) (by decide), by decide, by decide⟩, ⟨prqPremises_of (by decide) (by decide), by decide⟩,
    ⟨prqPremises_of (by decide) (by decide), by decide, by decide⟩, prqPremises_of (by decide) (by decide), by decide⟩

theorem witness_MachineImplementsDecode : State.reset.atFrameStart ∧ State.reset.netTimeInWidth ∧ frameS ≠ [] ∧
    Delivers (frameBeats frameS) frameS :=
  ⟨atFrameStart_reset, netTimeInWidth_reset, by decide, delivers_frameBeats (by decide)⟩

/-- Two parsers, one with registers and cells an earlier frame left, and wires that differ. -/
theorem witness_ResultDependsOnTheFrameAlone :
    let s' := { State.reset with x.netTime := 0x5A, x.size := 7, payload := [(0, 1)] }
    State.reset.atFrameStart ∧ s'.atFrameStart ∧ State.reset.netTimeInWidth ∧ s'.netTimeInWidth ∧
    State.reset.cfg = s'.cfg ∧ frameP1 ≠ [] ∧ Delivers (frameBeats frameP1) frameP1 ∧
    Delivers (Wires.idle :: frameBeats frameP1) frameP1 :=
  ⟨atFrameStart_reset, ⟨rfl, rfl, rfl⟩, netTimeInWidth_reset, by decide, rfl, by decide, delivers_frameBeats (by decide),
    delivers_idle rfl rfl (delivers_frameBeats (by decide))⟩

theorem witness_ResetForgetsTheFrame : Wires.resets.rst = true ∧ frameS ≠ [] ∧ Delivers (frameBeats frameS) frameS :=
  ⟨rfl, by decide, delivers_frameBeats (by decide)⟩

/-- A fatally failed frame, two edges of waiting, the Take, a good frame (program 3). -/
theorem witness_EveryOutcomeResumesWithTheNextFrame : State.reset.atFrameStart ∧ State.reset.netTimeInWidth ∧
    frameQ 1 1 [] ≠ [] ∧ frameP1 ≠ [] ∧ Delivers (frameBeats (frameQ 1 1 [])) (frameQ 1 1 []) ∧
    Delivers (frameBeats frameP1) frameP1 ∧
    (∀ v ∈ [Wires.idle, Wires.offer 0x01 false], v.rst = false ∧ v.resReady = false) ∧ Wires.takes.rst = false ∧
    Wires.takes.resReady = true :=
  ⟨atFrameStart_reset, netTimeInWidth_reset, by decide, by decide, delivers_frameBeats (by decide),
    delivers_frameBeats (by decide), by decide, rfl, rfl⟩

theorem witness_ShortestFrameIsOneByte : State.reset.atFrameStart := atFrameStart_reset

theorem witness_NoResultBeforeTheLastByte : State.reset.resValid = false ∧
    (∀ w ∈ [Wires.offer 0x01 false, Wires.idle], w.rst = false ∧ w.inLast = false) := by decide

/-- A step from a state of the invariant. -/
theorem witness_EveryStepKeepsTheInvariant : (draining 0x55 true).Inv ∧ (beatAt 0 0 0x01 false).Inv ∧
    step (beatAt 0 0 0x01 false) = .next
      { beatAt 1 0 0 false with x.dstMac := #v[0x01, 0, 0, 0, 0, 0], inputs := [] } :=
  ⟨draining_Inv, firstBeat_Inv, rfl⟩

/-- A posted result with registers `x`, code `k` and offset `p`. -/
def postedAt (x : Fields) (k : BitVec 3) (p : BitVec 9) : State :=
  { State.reset with x := x, pos := p, phase := .drain, st := k, resValid := true }

/-- A result of each code, in states of the invariant. -/
theorem witness_ConsumedFollowsTheStatus_ok : (postedAt { Fields.zero with msgType := 0x01 } 0 29).Inv ∧
    (postedAt { Fields.zero with msgType := 0x04, size := 256 } 0 280).Inv :=
  ⟨{ payload_wf := Memory.wf_nil, net_time := by decide, parsing := (fun h => nomatch h),
     draining := fun _ => .inl ⟨rfl, by decide, by decide⟩, posted := fun _ => by decide },
   { payload_wf := Memory.wf_nil, net_time := by decide, parsing := (fun h => nomatch h),
     draining := fun _ => .inr (.inl ⟨rfl, by decide, by decide, by decide⟩), posted := fun _ => by decide }⟩

theorem witness_ConsumedFollowsTheStatus_errors : (postedAt { Fields.zero with msgType := 0x02 } 2 17).Inv ∧
    (postedAt { Fields.zero with msgType := 0x03, size := 257 } 3 24).Inv ∧ (postedAt Fields.zero 4 17).Inv ∧
    ({ State.reset with pos := 1, st := 1, resValid := true } : State).Inv :=
  ⟨{ payload_wf := Memory.wf_nil, net_time := by decide, parsing := (fun h => nomatch h),
     draining := fun _ => .inr (.inr (.inl ⟨rfl, by decide, by decide⟩)), posted := fun _ => by decide },
   { payload_wf := Memory.wf_nil, net_time := by decide, parsing := (fun h => nomatch h),
     draining := fun _ => .inr (.inr (.inr (.inl ⟨rfl, by decide, by decide, by decide⟩))), posted := fun _ => by decide },
   { payload_wf := Memory.wf_nil, net_time := by decide, parsing := (fun h => nomatch h),
     draining := fun _ => .inr (.inr (.inr (.inr ⟨rfl, by decide, by decide⟩))), posted := fun _ => by decide },
   { payload_wf := Memory.wf_nil, net_time := by decide, parsing := fun _ => ⟨rfl, .inl (by decide)⟩,
     draining := (fun h => nomatch h), posted := fun _ => by decide }⟩

end Sys2Proof.Tests
end

section
/-! PROOFS for 00_scope.md: the lane write (R6), the payload buffer as a memory (R6, R20, R50), and that no edge stops
the block (R9 item 5). -/

namespace Sys2Proof.Machine

/-! ### The payload buffer -/

/-- In a list with rising indices a cell reads as the byte of its entry. -/
theorem Memory.read_eq_some_iff_mem {m : Memory} (hm : m.Pairwise fun x y => x.1 < y.1) {a : Nat} {v : Byte} :
    m.read a = some v ↔ (a, v) ∈ m := by
  induction m with
  | nil => simp
  | cons y m ih =>
    obtain ⟨c, w⟩ := y
    obtain ⟨hc, hm⟩ := List.pairwise_cons.1 hm
    rw [Memory.read, List.mem_cons]
    split_ifs with h
    · subst h
      have hnot : (a, v) ∉ m := fun hv => (hc _ hv).false
      simp [hnot, eq_comm]
    · simp [h, ih hm]

/-- The canonical form is unique: lists with rising indices that read alike list the same entries in the same order. -/
theorem Memory.ext_of_rising {m m' : Memory} (hm : m.Pairwise fun x y => x.1 < y.1)
    (hm' : m'.Pairwise fun x y => x.1 < y.1) (h : ∀ a, m.read a = m'.read a) : m = m' := by
  have hmem : ∀ x, x ∈ m ↔ x ∈ m' := fun (a, v) => by
    rw [← Memory.read_eq_some_iff_mem hm, ← Memory.read_eq_some_iff_mem hm', h a]
  have : Std.Irrefl fun x y : Host.Cell => x.1 < y.1 := ⟨fun _ => lt_irrefl _⟩
  have : Std.Antisymm fun x y : Host.Cell => x.1 < y.1 := ⟨fun _ _ hxy hyx => absurd hxy hyx.asymm⟩
  exact hm.eq_of_mem_iff hm' hmem

/-! ### The obligations -/

/-- Settles O6: the lane write bit by bit, from `setLane_getLsbD`. -/
theorem laneWriteTouchesOneByte : Obligations.LaneWriteTouchesOneByte :=
  fun _ r j d _ hi => setLane_getLsbD r j d hi

/-- Settles O34: read after write, canonical form kept and unique, and the read port. -/
theorem payloadBufferReadsAndWrites : Obligations.PayloadBufferReadsAndWrites := by
  refine ⟨Memory.read_write, ?keeps, Memory.cell_write, ?unique, ?port⟩
  case keeps => exact fun _ _ v hm ha => Memory.wf_write v hm ha
  case unique => exact fun _ _ ⟨hm, _⟩ ⟨hm', _⟩ h => Memory.ext_of_rising hm hm' h
  case port => exact fun _ => rfl

/-- Settles O17: every instruction's edge is the edge of its class (`exec_eq`), and `step` runs an instruction. -/
theorem everyEdgeGivesANextState : Obligations.EveryEdgeGivesANextState :=
  ⟨fun i s => ⟨classEdge i.cls s, exec_eq i s, classEdge_inputs i.cls s, classEdge_cfg i.cls s⟩,
    fun s => ⟨_, step_eq s⟩⟩

end Sys2Proof.Machine
end

section
/-! PROOFS for 10_state.md, part 1: a beat as a function of the accepted byte, and that it keeps code, class and offset of
a decode fitting together. -/

namespace Sys2Proof.Machine

/-! ### A beat as a function of the byte -/

/-- The tag in effect at the beat that accepts `d`. -/
def State.tagWith (d : Byte) (s : State) : Byte :=
  if s.phase = .parse ∧ s.pos.toNat = 14 then d else s.x.msgType

/-- Past the header the tag in effect is the register `msg_type`. -/
theorem State.tagWith_of_ge {s : State} (d : Byte) (h : 17 ≤ s.pos.toNat) : s.tagWith d = s.x.msgType :=
  if_neg (by omega)

/-- The state after a byte that is not marked as the last is accepted, the wires apart. -/
def State.accept (d : Byte) (s : State) : State :=
  State.beat (storeOf (classify (s.tagWith d))) (settleOf (classify (s.tagWith d))) d false s

theorem State.tagInEffect_of_beat {s : State} {d : Byte} {l : Bool} (h : s.event = .beat d l) :
    s.tagInEffect = s.tagWith d := by simp [State.tagInEffect, State.tagWith, h]

theorem State.accept_drain {s : State} (d : Byte) (h : s.phase = .drain) : s.accept d = s := by
  simp [State.accept, State.beat, h]

theorem State.accept_parse {s : State} (d : Byte) (h : s.phase = .parse) :
    s.accept d = settleOf (classify (s.tagWith d)) (storeOf (classify (s.tagWith d)) d s).advance :=
  State.beat_parse_more _ _ d h

/-- An edge that accepts a byte: the byte takes its effect, and a mark on it then posts the result (R169). -/
theorem classEdge_accept {s : State} {d : Byte} {l : Bool} (h : s.event = .beat d l) :
    classEdge (classify s.tagInEffect) s = (if l then (s.accept d).boundary else s.accept d).nextEdge := by
  rw [State.tagInEffect_of_beat h, classEdge_beat _ h]
  cases l <;> rfl

theorem step_beat {s : State} {d : Byte} {l : Bool} (h : s.event = .beat d l) :
    step s = .next (if l then (s.accept d).boundary else s.accept d).nextEdge := by
  rw [step_eq, classEdge_accept h]

@[simp] theorem State.accept_resValid (d : Byte) (s : State) : (s.accept d).resValid = s.resValid := by
  rcases hp : s.phase
  · simp [s.accept_parse d hp]
  · rw [s.accept_drain d hp]

@[simp] theorem State.accept_cfg (d : Byte) (s : State) : (s.accept d).cfg = s.cfg := by
  rcases hp : s.phase
  · simp [s.accept_parse d hp]
  · rw [s.accept_drain d hp]

/-- The tag in effect is what `msg_type` holds after the store (`storeOf_msgType`, which speaks of an edge's wires). -/
theorem storeOf_msgType_tagWith {s : State} (d : Byte) (hp : s.phase = .parse) :
    (storeOf (classify (s.tagWith d)) d s).x.msgType = s.tagWith d := by
  let u : State := { s with resValid := false, inputs := [Wires.offer d false] }
  have hu : u.event = .beat d false := rfl
  have hx (c : MessageType) : (storeOf c d u).x = (storeOf c d s).x := by cases c <;> rfl
  have ht : u.tagInEffect = s.tagWith d := State.tagInEffect_of_beat hu
  rw [← ht, ← hx]
  exact storeOf_msgType hu hp

/-! ### The outcome and the offset fit together -/

/-- The part of the invariant that a decode keeps, whatever the registers held before: while parsing the frame needs more
bytes, while draining the outcome is one the spec gives. -/
structure State.OnTrack (s : State) : Prop where
  parsing : s.phase = .parse → s.needsMore
  draining : s.phase = .drain → s.decided

theorem needsMore_lt {s : State} (h : s.needsMore) : s.pos.toNat < 280 := by
  have := netTimeBytes_range s.cfg
  omega

theorem decided_pos {s : State} (h : s.decided) : 17 ≤ s.pos.toNat ∧ s.pos.toNat ≤ 280 := by
  have := netTimeBytes_range s.cfg
  omega

theorem decided_st {s : State} (h : s.decided) : s.st.toNat ≤ 4 := by
  rcases h with ⟨h, _⟩ | ⟨h, _⟩ | ⟨h, _⟩ | ⟨h, _⟩ | ⟨h, _⟩ <;> simp [h]

theorem State.OnTrack.of_parse {s : State} (hp : s.phase = .parse) (h : s.needsMore) : s.OnTrack :=
  ⟨fun _ => h, fun hd => by simp [hp] at hd⟩

theorem State.OnTrack.of_drain {s : State} (hp : s.phase = .drain) (h : s.decided) : s.OnTrack :=
  ⟨fun hd => by simp [hp] at hd, fun _ => h⟩

theorem settleSoc_onTrack {s : State} (hp : s.phase = .parse) (hc : classify s.x.msgType = .soc)
    (hpos : s.pos.toNat ≤ 28 + s.cfg.netTimeBytes) : (settleSoc s).OnTrack := by
  rcases hpos.lt_or_eq with hlt | heq
  · rw [settleSoc_elsewhere hlt.ne]
    exact .of_parse hp (.inr (.inl ⟨hc, hlt⟩))
  · rw [settleSoc_at heq]
    exact .of_drain rfl (.inl ⟨rfl, hc, heq⟩)

theorem settlePrq_onTrack {s : State} (hp : s.phase = .parse) (hc : isPrq (classify s.x.msgType))
    (hpos : s.pos.toNat ≤ 24 ∨ s.x.size.toNat ≤ 256 ∧ s.pos.toNat ≤ 24 + s.x.size.toNat) :
    (settlePrq s).OnTrack := by
  by_cases hlong : s.pos.toNat = 24 ∧ 256 < s.x.size.toNat
  · obtain ⟨h24, hs⟩ := hlong
    rw [settlePrq_tooLong h24 hs]
    exact .of_drain rfl (.inr (.inr (.inr (.inl ⟨rfl, hc, hs, h24⟩))))
  have hs : s.pos.toNat = 24 → s.x.size.toNat ≤ 256 := fun h => not_lt.1 fun h' => hlong ⟨h, h'⟩
  by_cases heq : s.pos.toNat = 24 + s.x.size.toNat
  · rw [settlePrq_at hs heq]
    have hle : s.x.size.toNat ≤ 256 := by omega
    exact .of_drain rfl (.inr (.inl ⟨rfl, hc, hle, heq⟩))
  · rw [settlePrq_elsewhere hs heq]
    exact .of_parse hp (.inr (.inr ⟨hc, by omega⟩))

/-- The classes no body decoder takes are settled as the header completes. -/
theorem settleOf_stop_onTrack {s : State} (hc : ¬(classify s.x.msgType = .soc ∨ isPrq (classify s.x.msgType)))
    (hpos : s.pos.toNat = 17) : (settleOf (classify s.x.msgType) s).OnTrack := by
  cases h : classify s.x.msgType
  case soc => simp [h] at hc
  case preq => simp [h] at hc
  case pres => simp [h] at hc
  case unknown =>
    rw [settleOf, settleStop_at _ hpos]
    exact .of_drain rfl (.inr (.inr (.inl ⟨rfl, h, hpos⟩)))
  all_goals
    rw [settleOf, settleStop_at _ hpos]
    exact .of_drain rfl (.inr (.inr (.inr (.inr ⟨rfl, by simp [h, isNoBody], hpos⟩))))

/-- Settling decides a frame exactly when its last byte has been stored. -/
theorem settleOf_onTrack {s : State} (hp : s.phase = .parse)
    (hpos : s.pos.toNat ≤ 17 ∨ classify s.x.msgType = .soc ∧ s.pos.toNat ≤ 28 + s.cfg.netTimeBytes ∨
      isPrq (classify s.x.msgType) ∧
        (s.pos.toNat ≤ 24 ∨ s.x.size.toNat ≤ 256 ∧ s.pos.toNat ≤ 24 + s.x.size.toNat)) :
    (settleOf (classify s.x.msgType) s).OnTrack := by
  by_cases hlo : s.pos.toNat < 17
  · rw [settleOf_header _ hlo]
    exact .of_parse hp (.inl hlo)
  by_cases hsoc : classify s.x.msgType = .soc
  · rw [hsoc]
    exact settleSoc_onTrack hp hsoc (by simp [hsoc, isPrq] at hpos; omega)
  by_cases hprq : isPrq (classify s.x.msgType)
  · rw [show settleOf (classify s.x.msgType) = settlePrq by rcases hprq with h | h <;> rw [h] <;> rfl]
    exact settlePrq_onTrack hp hprq (by simp [hsoc] at hpos; omega)
  · exact settleOf_stop_onTrack (by tauto) (by simp [hsoc, hprq] at hpos; omega)

/-- `size` is written before the payload starts. -/
theorem storeOf_size {s : State} (c : MessageType) (d : Byte) (h : 24 ≤ s.pos.toNat) :
    (storeOf c d s).x.size = s.x.size := by
  cases c <;> simp [storeOf, headerStore_body, socStore_prq, prqStore_of_ge h]

/-- Accepting a byte keeps a decode on track (R163 to R168). -/
theorem State.OnTrack.accept {s : State} (d : Byte) (h : s.OnTrack) : (s.accept d).OnTrack := by
  rcases hp : s.phase
  case drain => rwa [s.accept_drain d hp]
  have hmore := h.parsing hp
  have hpos := pos_succ_toNat (p := s.pos) (by have := needsMore_lt hmore; omega)
  have hmsg := storeOf_msgType_tagWith d hp
  rw [s.accept_parse d hp]
  conv => enter [1, 1]; rw [← hmsg]
  refine settleOf_onTrack (s := (storeOf (classify (s.tagWith d)) d s).advance) (by simpa using hp) ?_
  simp only [State.advance_pos, State.advance_x, State.advance_cfg, storeOf_pos, storeOf_cfg, hpos, hmsg]
  by_cases hlo : s.pos.toNat < 17
  · exact .inl hlo
  rw [State.tagWith_of_ge d (not_lt.1 hlo)]
  rcases hmore with h | ⟨hc, h⟩ | ⟨hc, h | ⟨hs, h⟩⟩
  · exact absurd h hlo
  · exact .inr (.inl ⟨hc, h⟩)
  · exact .inr (.inr ⟨hc, .inl h⟩)
  · by_cases h24 : s.pos.toNat < 24
    · exact .inr (.inr ⟨hc, .inl h24⟩)
    · rw [storeOf_size _ d (not_lt.1 h24)]
      exact .inr (.inr ⟨hc, .inr ⟨hs, h⟩⟩)

end Sys2Proof.Machine
end

section
/-! PROOFS for 10_state.md, part 2: the invariant (R14, R16, R19, R180), and the posted result by its code. -/

namespace Sys2Proof.Machine

/-! ### The invariant -/

theorem State.Inv.onTrack {s : State} (h : s.Inv) : s.OnTrack := ⟨fun hp => (h.parsing hp).2, h.draining⟩

theorem State.Inv.pos_le {s : State} (h : s.Inv) : s.pos.toNat ≤ 280 := by
  rcases hp : s.phase
  · exact (needsMore_lt (h.parsing hp).2).le
  · exact (decided_pos (h.draining hp)).2

theorem State.Inv.st_le {s : State} (h : s.Inv) : s.st.toNat ≤ 4 := by
  rcases hp : s.phase
  · rw [(h.parsing hp).1]; split <;> decide
  · exact decided_st (h.draining hp)

theorem payloadStore_wf (p : Nat) (d : Byte) {m : Memory} (h : m.wf) : (payloadStore p d m).wf := by
  unfold payloadStore
  split
  · next a ha => exact Memory.wf_write d h (payloadIndex_eq_some.1 ha).2
  · exact h

theorem storeOf_payload_wf (c : MessageType) (d : Byte) {s : State} (h : s.payload.wf) :
    (storeOf c d s).payload.wf := by
  cases c
  case preq => exact payloadStore_wf _ d h
  case pres => exact payloadStore_wf _ d h
  all_goals exact h

theorem storeOf_netTimeInWidth (c : MessageType) (d : Byte) {s : State} (h : s.netTimeInWidth) :
    (storeOf c d s).netTimeInWidth := by
  cases c
  case soc => exact socStore_netTime_lt _ d h
  all_goals simpa [State.netTimeInWidth, storeOf, headerStore_body, prqStore_soc] using h

theorem State.accept_payload_wf (d : Byte) {s : State} (h : s.payload.wf) : (s.accept d).payload.wf := by
  rcases hp : s.phase
  · rw [s.accept_parse d hp, settleOf_payload]; exact storeOf_payload_wf _ d h
  · rwa [s.accept_drain d hp]

theorem State.accept_netTimeInWidth (d : Byte) {s : State} (h : s.netTimeInWidth) :
    (s.accept d).netTimeInWidth := by
  rcases hp : s.phase
  · simpa [s.accept_parse d hp, State.netTimeInWidth] using storeOf_netTimeInWidth (classify (s.tagWith d)) d h
  · rwa [s.accept_drain d hp]

theorem State.accept_pos_parse (d : Byte) {s : State} (hp : s.phase = .parse) : (s.accept d).pos = s.pos + 1 := by
  simp [s.accept_parse d hp]

/-- A byte that leaves the parser in PARSE leaves `st` alone. -/
theorem State.accept_st_of_parse {d : Byte} {s : State} (h : (s.accept d).phase = .parse) :
    (s.accept d).st = s.st := by
  rcases hp : s.phase
  · rw [s.accept_parse d hp] at h ⊢
    rcases settleOf_cases (classify (s.tagWith d)) (storeOf (classify (s.tagWith d)) d s).advance
      with hs | hs | ⟨k, hk, hs⟩ <;> rw [hs] at h ⊢
    · simp
    · simp at h
    · simp [hk] at h
  · rw [s.accept_drain d hp]

theorem State.Inv.accept {s : State} (d : Byte) (h : s.Inv) (hv : s.resValid = false) : (s.accept d).Inv where
  payload_wf := s.accept_payload_wf d h.payload_wf
  net_time := s.accept_netTimeInWidth d h.net_time
  parsing hp' := by
    refine ⟨?_, (h.onTrack.accept d).parsing hp'⟩
    rw [State.accept_st_of_parse hp', s.accept_resValid]
    rcases hp : s.phase
    · exact (h.parsing hp).1
    · simp [s.accept_drain d hp, hp] at hp'
  draining := (h.onTrack.accept d).draining
  posted hv' := by simp [hv] at hv'

/-- A byte accepted counts: after it `pos` is not 0. -/
theorem State.OnTrack.accept_pos_ne_zero {s : State} (d : Byte) (h : s.OnTrack) : (s.accept d).pos ≠ 0 := by
  refine fun h0 => absurd (congrArg BitVec.toNat h0) ?_
  rcases hp : s.phase
  · have := needsMore_lt (h.parsing hp)
    rw [s.accept_pos_parse d hp, pos_succ_toNat (by omega)]
    simp
  · have := decided_pos (h.draining hp)
    rw [s.accept_drain d hp]
    simp; omega

theorem State.Inv.boundary {s : State} (h : s.Inv) (hpos : s.pos ≠ 0) : s.boundary.Inv where
  payload_wf := by simpa using h.payload_wf
  net_time := by simpa [State.netTimeInWidth] using h.net_time
  parsing hp := by
    rw [State.boundary_phase] at hp
    simpa [hp, errorCode, State.needsMore] using (h.parsing hp).2
  draining hp := by
    rw [State.boundary_phase] at hp
    simpa [hp, State.decided] using h.draining hp
  posted _ := by simpa using hpos

theorem State.Inv.nextEdge {s : State} (h : s.Inv) : s.nextEdge.Inv :=
  ⟨h.payload_wf, h.net_time, h.parsing, h.draining, h.posted⟩

/-- At offset 0 of a frame with `st` clear only the payload list and `net_time` matter. -/
theorem State.inv_of_frameStart {s : State} (h : s.atFrameStart) (hst : s.st = 0) (hm : s.payload.wf)
    (hn : s.netTimeInWidth) : s.Inv := by
  obtain ⟨hv, hpos, hp⟩ := h
  have hmore : s.needsMore := .inl (by simp [hpos])
  exact ⟨hm, hn, fun _ => ⟨by simp [hv, hst], hmore⟩, fun hd => by simp [hp] at hd, fun hv' => by simp [hv] at hv'⟩

theorem State.Inv.applyReset {s : State} (h : s.Inv) : s.applyReset.Inv :=
  State.inv_of_frameStart ⟨rfl, rfl, rfl⟩ rfl h.payload_wf (Nat.two_pow_pos _)

theorem State.Inv.takeResult {s : State} (h : s.Inv) : s.takeResult.Inv :=
  State.inv_of_frameStart ⟨rfl, rfl, rfl⟩ rfl h.payload_wf h.net_time

/-- Every edge keeps the invariant. -/
theorem State.Inv.step {s t : State} (h : s.Inv) (hst : step s = .next t) : t.Inv := by
  rcases he : s.event with _ | _ | ⟨d, l⟩ | _
  case beat =>
    have hv := (State.of_event_beat he).2.1
    rw [step_beat he, Host.Outcome.next.injEq] at hst
    subst hst
    cases l
    · exact (h.accept d hv).nextEdge
    · exact ((h.accept d hv).boundary (h.onTrack.accept_pos_ne_zero d)).nextEdge
  all_goals rw [step_eq, Host.Outcome.next.injEq] at hst; subst hst
  case reset => rw [classEdge_reset _ he]; exact h.applyReset.nextEdge
  case take => rw [classEdge_take _ he]; exact h.takeResult.nextEdge
  case hold => rw [classEdge_hold _ he]; exact h.nextEdge

/-- Settles O51: every edge keeps the invariant, which bounds `pos` and `st`. -/
theorem everyStepKeepsTheInvariant : Obligations.EveryStepKeepsTheInvariant := fun _ _ hs hst =>
  have ht := hs.step hst
  ⟨ht, ht.pos_le, ht.st_le⟩

/-- Settles O50: State.reset is the start of a frame with every register zero. -/
theorem resetStateMeetsTheInvariant : Obligations.ResetStateMeetsTheInvariant :=
  State.inv_of_frameStart ⟨rfl, rfl, rfl⟩ rfl Memory.wf_nil (Nat.two_pow_pos _)

/-! ### The posted result, by its code -/

section
variable {s : State} (hv : s.resValid = true)
include hv

theorem State.result_ok (hst : s.st = 0) :
    s.result = s.bodyView.map fun b => .ok { header := s.headerView, body := b, consumed := s.pos.toNat } := by
  simp [State.result, hv, hst, okCode]

theorem State.result_truncated (hst : s.st = 1) : s.result = some .truncatedBuffer := by
  simp [State.result, hv, hst, okCode, errorCode]

theorem State.result_unknown (hst : s.st = 2) : s.result = some (.unknownMessageType s.headerView) := by
  simp [State.result, hv, hst, okCode, errorCode]

theorem State.result_sizeOutOfRange (hst : s.st = 3) : s.result = some .sizeOutOfRange := by
  simp [State.result, hv, hst, okCode, errorCode]

theorem State.result_noBody (hst : s.st = 4) : s.result = some (.noBodyLayout s.headerView) := by
  simp [State.result, hv, hst, okCode, errorCode]

end

theorem State.bodyView_soc {s : State} (hc : classify s.x.msgType = .soc) : s.bodyView = some (.soc s.socView) := by
  simp [State.bodyView, hc]

theorem State.bodyView_preq {s : State} (hc : classify s.x.msgType = .preq) : s.bodyView = some (.preq s.prqView) := by
  simp [State.bodyView, hc]

theorem State.bodyView_pres {s : State} (hc : classify s.x.msgType = .pres) : s.bodyView = some (.pres s.prqView) := by
  simp [State.bodyView, hc]

theorem State.isSome_bodyView {s : State} :
    s.bodyView.isSome ↔ classify s.x.msgType = .soc ∨ isPrq (classify s.x.msgType) := by
  cases h : classify s.x.msgType <;> simp [State.bodyView, h, isPrq]

/-- A decided outcome, once posted, is a result of the spec. -/
theorem State.isSome_result_of_decided {s : State} (hv : s.resValid = true) (h : s.decided) : s.result.isSome := by
  rcases h with ⟨hst, hc, -⟩ | ⟨hst, hc, -⟩ | ⟨hst, -⟩ | ⟨hst, -⟩ | ⟨hst, -⟩
  · rw [State.result_ok hv hst, Option.isSome_map]; exact State.isSome_bodyView.2 (.inl hc)
  · rw [State.result_ok hv hst, Option.isSome_map]; exact State.isSome_bodyView.2 (.inr hc)
  · rw [State.result_unknown hv hst]; rfl
  · rw [State.result_sizeOutOfRange hv hst]; rfl
  · rw [State.result_noBody hv hst]; rfl

/-- Settles O52: a result is posted either in PARSE, as TruncatedBuffer, or in DRAIN, where the invariant ties the code
to the class and the offset. -/
theorem consumedFollowsTheStatus : Obligations.ConsumedFollowsTheStatus := by
  intro s h hv
  simp only [State.outputs, okCode, errorCode]
  rcases hp : s.phase
  case parse =>
    obtain ⟨hst, hmore⟩ := h.parsing hp
    rw [hv, if_pos rfl] at hst
    have hlt := needsMore_lt hmore
    have hpos : s.pos.toNat ≠ 0 := fun h0 => h.posted hv (BitVec.eq_of_toNat_eq h0)
    refine ⟨?_, ?_, ?_, ?_, fun _ => by omega, by simp [State.result_truncated hv hst]⟩ <;> simp [hst]
  case drain =>
    have hsome := State.isSome_result_of_decided hv (h.draining hp)
    rcases h.draining hp with ⟨hst, hc, hpos⟩ | ⟨hst, hc, hs, hpos⟩ | ⟨hst, hc, hpos⟩ | ⟨hst, hc, hs, hpos⟩ |
      ⟨hst, hc, hpos⟩
    · simp [hst, hpos, hc, isPrq, hsome]
    · have hne : classify s.x.msgType ≠ .soc := by rcases hc with hc | hc <;> simp [hc]
      simp [hst, hpos, hne, hsome]
    · simp [hst, hpos, hsome]
    · simp [hst, hpos, hsome]
    · simp [hst, hpos, hsome]

end Sys2Proof.Machine
end

section
/-! PROOFS for 10_state.md, part 3: the result handshake (R17), the frame of the registers (R11, R13), the class output (R18)
and the values after reset (R25). -/

namespace Sys2Proof.Machine

/-! ### The result handshake (R17) -/

/-- The mark of the last byte raises `res_valid`. -/
theorem resValid_of_marked {s : State} (hv : s.resValid = false) (l : Bool) :
    (if l then s.boundary else s).resValid = l := by
  cases l <;> simp [hv]

/-- Settles O25, by the event of the edge. -/
theorem resultStaysUntilTaken : Obligations.ResultStaysUntilTaken := by
  refine ⟨rfl, fun s => ?_⟩
  have hready : s.resValid = true → s.outputs.inReady = false := fun hv => by simp [State.outputs, State.inReady, hv]
  rcases he : s.event with _ | _ | ⟨d, l⟩ | _
  case reset =>
    have hr := State.of_event_reset he
    exact ⟨_, step_eq s, by simp [classEdge_reset _ he, State.reset, hr],
      fun hv => ⟨hready hv, by simp [classEdge_reset _ he, State.reset]⟩⟩
  case take =>
    obtain ⟨-, -, hr⟩ := State.of_event_take he
    exact ⟨_, step_eq s, by simp [classEdge_take _ he, hr],
      fun hv => ⟨hready hv, by simp [classEdge_take _ he]⟩⟩
  case beat =>
    have hv := (State.of_event_beat he).2.1
    exact ⟨_, step_beat he, by simp [resValid_of_marked, hv], fun hv' => by simp [hv] at hv'⟩
  case hold =>
    obtain ⟨hr, hh⟩ := State.of_event_hold he
    refine ⟨_, step_eq s, ?_, fun hv => ⟨hready hv, fun _ => classEdge_hold _ he⟩⟩
    rcases hh with ⟨hv, hrr⟩ | ⟨hv, -⟩ <;> simp [classEdge_hold _ he, *]

/-! ### The frame of the registers (R11, R13) -/

/-- An edge that is neither a Reset nor a Beat in PARSE leaves registers and buffer alone. -/
theorem classEdge_keeps_fields (c : MessageType) {s : State} (hr : s.wires.rst = false)
    (h : ∀ d l, s.event = .beat d l → s.phase = .drain) :
    (classEdge c s).x = s.x ∧ (classEdge c s).payload = s.payload := by
  rcases he : s.event with _ | _ | ⟨d, l⟩ | _
  · simp [State.of_event_reset he] at hr
  · simp [classEdge_take c he]
  · simp [classEdge_drain c he (h d l he)]
  · simp [classEdge_hold c he]

/-- Outside a Reset, registers and buffer change by a store at most. -/
theorem classEdge_fields (c : MessageType) {s : State} (hr : s.wires.rst = false) :
    ((classEdge c s).x = s.x ∧ (classEdge c s).payload = s.payload) ∨
      ∃ d l, s.event = .beat d l ∧ s.phase = .parse ∧
        (classEdge c s).x = (storeOf c d s).x ∧ (classEdge c s).payload = (storeOf c d s).payload := by
  by_cases h : ∃ d l, s.event = .beat d l ∧ s.phase = .parse
  · obtain ⟨d, l, he, hp⟩ := h
    exact .inr ⟨d, l, he, hp, classEdge_parse_stores c he hp⟩
  · refine .inl (classEdge_keeps_fields c hr fun d l he => ?_)
    rcases hp : s.phase
    · exact absurd ⟨d, l, he, hp⟩ h
    · rfl

theorem storeOf_times {c : MessageType} (hc : c ≠ .soc) (d : Byte) (s : State) :
    (storeOf c d s).x.netTime = s.x.netTime ∧ (storeOf c d s).x.relTime = s.x.relTime := by
  cases c
  case soc => exact absurd rfl hc
  all_goals simp [storeOf, headerStore_body, prqStore_soc]

theorem storeOf_prqFixed {c : MessageType} (hc : ¬isPrq c) (d : Byte) (s : State) :
    (storeOf c d s).x.pdoVersion = s.x.pdoVersion ∧ (storeOf c d s).x.reserved2 = s.x.reserved2 ∧
    (storeOf c d s).x.size = s.x.size ∧ (storeOf c d s).payload = s.payload := by
  cases c
  case preq => exact absurd (.inl rfl) hc
  case pres => exact absurd (.inr rfl) hc
  all_goals simp [storeOf, headerStore_body, socStore_prq]

theorem storeOf_noBody {c : MessageType} (hs : c ≠ .soc) (hp : ¬isPrq c) : storeOf c = storeHeader := by
  cases c
  case soc => exact absurd rfl hs
  case preq => exact absurd (.inl rfl) hp
  case pres => exact absurd (.inr rfl) hp
  all_goals rfl

theorem storeOf_headerRegs (c : MessageType) (d : Byte) {s : State} (h : 17 ≤ s.pos.toNat) :
    (storeOf c d s).x.dstMac = s.x.dstMac ∧ (storeOf c d s).x.srcMac = s.x.srcMac ∧
    (storeOf c d s).x.etherType = s.x.etherType ∧ (storeOf c d s).x.msgType = s.x.msgType ∧
    (storeOf c d s).x.dstNode = s.x.dstNode ∧ (storeOf c d s).x.srcNode = s.x.srcNode := by
  cases c
  case soc => exact socStore_headerRegs h d s.x
  case preq => exact prqStore_headerRegs h d s.x
  case pres => exact prqStore_headerRegs h d s.x
  all_goals simp [storeOf, headerStore_of_ge h]

/-- Settles O36: the only writes are those of the class's store table (`classEdge_fields`). -/
theorem formatsWriteOnlyTheirOwnRegisters : Obligations.FormatsWriteOnlyTheirOwnRegisters := by
  intro i s hr
  refine ⟨_, exec_eq i s, ?times, ?prq, ?start, ?header, ?body, fun h => ?quiet⟩
  case quiet =>
    obtain ⟨hx, hm⟩ := classEdge_keeps_fields i.cls hr h
    simp [hx, hm]
  all_goals
    rcases classEdge_fields i.cls hr with ⟨hx, hm⟩ | ⟨d, l, -, -, hx, hm⟩
    · simp [hx, hm]
    rw [hx]
  case times => exact fun hc => storeOf_times hc d s
  case prq => rw [hm]; exact fun hc => storeOf_prqFixed hc d s
  case start =>
    intro hs hp
    simp [storeOf_noBody hs hp, headerStore_body]
  case header => exact storeOf_headerRegs i.cls d
  case body =>
    intro hlt
    rw [hm, storeOf_header _ d hlt]
    simp [headerStore_body]

/-! ### The values after reset (R25), and the class output (R18) -/

theorem classCode_classify_nibble (t : Byte) (h : classify t ≠ .unknown) :
    classCode (classify t) = t.extractLsb' 0 4 := by
  revert h; revert t; decide

theorem classCode_eq_f_iff (c : MessageType) : classCode c = 0xF ↔ c = .unknown := by cases c <;> decide

/-- Settles O37. -/
theorem classOutputIsTheCode : Obligations.ClassOutputIsTheCode := fun s =>
  ⟨rfl, classCode_classify_nibble s.x.msgType, classCode_eq_f_iff _, rfl⟩

/-- A byte accepted at offset 0 is stored as the first byte of the frame. -/
theorem State.accept_first {s : State} (d : Byte) (hp : s.phase = .parse) (hpos : s.pos = 0) :
    (s.accept d).x.dstMac[0] = d ∧ (s.accept d).pos = 1 := by
  have h0 : s.pos.toNat = 0 := by simp [hpos]
  refine ⟨?_, by simp [s.accept_pos_parse d hp, hpos]⟩
  simp [s.accept_parse d hp, storeOf_header _ d (show s.pos.toNat < 17 by omega), headerStore, h0]

/-- Settles O18. -/
theorem resetStateHoldsTheSpecsValues : Obligations.ResetStateHoldsTheSpecsValues := by
  have hmac : ∀ k : Fin 6, State.reset.x.dstMac[k] = 0 ∧ State.reset.x.srcMac[k] = 0 := by decide
  have hready (ins : List Wires) (h : (ins.headD Wires.idle).rst = false) :
      ({ State.reset with inputs := ins } : State).outputs.inReady = true := by
    simpa [State.outputs, State.inReady, State.wires, State.reset] using h
  have hfirst (d : Byte) (rest : List Wires) : ∃ t,
      step { State.reset with inputs := Wires.offer d false :: rest } = .next t ∧ t.x.dstMac[0] = d ∧ t.pos = 1 :=
    ⟨_, step_beat (l := false) rfl,
      State.accept_first (s := { State.reset with inputs := Wires.offer d false :: rest }) d rfl rfl⟩
  exact ⟨rfl, rfl, rfl, rfl, hmac, rfl, rfl, rfl, rfl, rfl, rfl, rfl, rfl, rfl, rfl, rfl, rfl, fun _ => rfl, hready,
    rfl, rfl, rfl, rfl, rfl, rfl, rfl, hfirst⟩

end Sys2Proof.Machine
end

section
/-! PROOFS for 10_state.md, part 4: a delivered frame is its bytes accepted in turn, whatever idle edges stand between
them (R173, R175). -/

namespace Sys2Proof.Machine

/-- The bytes of `B` accepted in turn, none marked as the last. -/
def State.acceptAll (B : List Byte) (s : State) : State := B.foldl (fun u d => u.accept d) s

@[simp] theorem State.acceptAll_nil (s : State) : s.acceptAll [] = s := rfl

@[simp] theorem State.acceptAll_cons (d : Byte) (B : List Byte) (s : State) :
    s.acceptAll (d :: B) = (s.accept d).acceptAll B := rfl

/-! ### A byte's effect does not depend on the wires to come -/

theorem storeOf_withInputs (c : MessageType) (d : Byte) (s : State) (ins : List Wires) :
    storeOf c d { s with inputs := ins } = { storeOf c d s with inputs := ins } := by cases c <;> rfl

theorem settleStop_withInputs (k : ErrorKind) (s : State) (ins : List Wires) :
    settleStop k { s with inputs := ins } = { settleStop k s with inputs := ins } := by
  unfold settleStop
  split_ifs
  · cases k <;> rfl
  · rfl

theorem settleOf_withInputs (c : MessageType) (s : State) (ins : List Wires) :
    settleOf c { s with inputs := ins } = { settleOf c s with inputs := ins } := by
  have hprq : settlePrq { s with inputs := ins } = { settlePrq s with inputs := ins } := by
    unfold settlePrq; split_ifs <;> rfl
  cases c
  case soc => simp only [settleOf, settleSoc]; split_ifs <;> rfl
  case preq => exact hprq
  case pres => exact hprq
  all_goals exact settleStop_withInputs _ s ins

theorem Phase.parse_or_drain (p : Phase) : p = .parse ∨ p = .drain := by cases p <;> simp

theorem State.accept_withInputs (d : Byte) (s : State) (ins : List Wires) :
    ({ s with inputs := ins } : State).accept d = { s.accept d with inputs := ins } := by
  rcases s.phase.parse_or_drain with hp | hp
  · rw [s.accept_parse d hp, State.accept_parse d (by exact hp), storeOf_withInputs]
    exact settleOf_withInputs _ (storeOf (classify (s.tagWith d)) d s).advance ins
  · rw [s.accept_drain d hp, State.accept_drain d (by exact hp)]

theorem State.boundary_withInputs (s : State) (ins : List Wires) :
    ({ s with inputs := ins } : State).boundary = { s.boundary with inputs := ins } := by
  rcases hp : s.phase <;> simp [State.boundary, hp, State.raise]

/-! ### The edges that deliver a frame -/

/-- The edge of wires `w` with a byte offered, on a parser without a pending result. -/
theorem edge_offered {s : State} {w : Wires} (ins : List Wires) (hv : s.resValid = false) (hr : w.rst = false)
    (hi : w.inValid = true) :
    after 1 { s with inputs := w :: ins } =
      { (if w.inLast then (s.accept w.inData).boundary else s.accept w.inData) with inputs := ins } := by
  have he : State.event { s with inputs := w :: ins } = .beat w.inData w.inLast := State.event_beat hr hv hi
  rw [after, classEdge_accept he, State.accept_withInputs, State.boundary_withInputs]
  cases w.inLast <;> rfl

/-- The edge of wires `w` with no byte offered, on a parser without a pending result. -/
theorem edge_idle {s : State} {w : Wires} (ins : List Wires) (hv : s.resValid = false) (hr : w.rst = false)
    (hi : w.inValid = false) : after 1 { s with inputs := w :: ins } = { s with inputs := ins } := by
  have he : State.event { s with inputs := w :: ins } = .hold := State.event_hold hr (.inr ⟨hv, hi⟩)
  rw [after, classEdge_hold _ he]
  rfl

/-- Wires that end with a byte offer one. -/
theorem offered_ne_nil {ins : List Wires} (h : (ins.getLast?.map fun w => w.inValid) = some true) :
    offered ins ≠ [] := by
  obtain ⟨w, hw, hi⟩ := Option.map_eq_some_iff.1 h
  have hmem : w ∈ ins.filter fun w => w.inValid := List.mem_filter.2 ⟨List.mem_of_getLast? hw, hi⟩
  intro hnil
  rw [offered, List.map_eq_nil_iff] at hnil
  simp [hnil] at hmem

/-- A delivered frame is its bytes accepted in turn, and then the frame boundary. -/
theorem after_delivers {ins : List Wires} {B : List Byte} {s : State} (rest : List Wires) (h : Delivers ins B)
    (hv : s.resValid = false) :
    after ins.length { s with inputs := ins ++ rest } = { (s.acceptAll B).boundary with inputs := rest } := by
  induction ins generalizing B s with
  | nil => simp [Delivers] at h
  | cons w ins ih =>
    obtain ⟨hrst, hoff, hlast⟩ := h
    have hr := hrst w List.mem_cons_self
    have hrst' := fun v hv => hrst v (List.mem_cons_of_mem w hv)
    rw [List.length_cons, Nat.add_comm, after_add, List.cons_append]
    have htail (hne : ins ≠ []) : (ins.getLast?.map fun w => w.inValid) = some true := by
      rwa [List.getLast?_cons_of_ne_nil hne] at hlast
    rcases hi : w.inValid
    case false =>
      have hoff' : offered ins = marked B := by rw [← hoff]; simp [offered, hi]
      have hne : ins ≠ [] := by rintro rfl; simp [hi] at hlast
      rw [edge_idle _ hv hr hi, ih ⟨hrst', hoff', htail hne⟩ hv]
    case true =>
      have hoff' : (w.inData, w.inLast) :: offered ins = marked B := by rw [← hoff]; simp [offered, hi]
      rw [edge_offered _ hv hr hi]
      match B with
      | [] => simp [marked] at hoff'
      | [b] =>
        obtain ⟨⟨rfl, hl⟩, hnil⟩ : (w.inData = b ∧ w.inLast = true) ∧ offered ins = [] := by
          simpa [marked] using hoff'
        obtain rfl : ins = [] := by
          by_contra hne
          exact offered_ne_nil (htail hne) hnil
        simp [hl, after]
      | b :: b' :: bs =>
        obtain ⟨⟨rfl, hl⟩, hmore⟩ : (w.inData = b ∧ w.inLast = false) ∧ offered ins = marked (b' :: bs) := by
          simpa [marked_cons_cons] using hoff'
        have hne : ins ≠ [] := by
          rintro rfl
          simpa [offered] using congrArg List.length hmore
        simpa [hl] using ih (s := s.accept w.inData) ⟨hrst', hmore, htail hne⟩ (by simpa using hv)

end Sys2Proof.Machine
end

section
/-! PROOFS for 10_state.md, part 5: the registers and the payload buffer as a memory of frame bytes. The store tables of
R162 say where the byte at an offset goes; `State.frameByte` reads it back from there. -/

namespace Sys2Proof.Machine

/-! ### Reading a byte of the frame back -/

/-- The byte of format H (R61) the registers hold for offset `k < 17`. -/
def Fields.headerByte (x : Fields) (k : Nat) : Byte :=
  if k < 6 then byteAt x.dstMac.toList k
  else if k < 12 then byteAt x.srcMac.toList (k - 6)
  else if k < 14 then x.etherType.extractLsb' (8 * lane .big 2 (k - 12)) 8
  else if k = 14 then x.msgType
  else if k = 15 then x.dstNode
  else x.srcNode

/-- The byte of the common start of the bodies (R60) the registers hold for offset `17 ≤ k < 20`. -/
def Fields.bodyStartByte (x : Fields) (k : Nat) : Byte :=
  if k = 17 then x.body0 else if k = 18 then x.flag1 else x.flag2

/-- The byte of the rest of format S (R62) the registers hold for offset `20 ≤ k < 28 + W`. -/
def Fields.socTimesByte (W : Nat) (x : Fields) (k : Nat) : Byte :=
  if k < 20 + W then x.netTime.extractLsb' (8 * lane .little W (k - 20)) 8
  else x.relTime.extractLsb' (8 * lane .little 8 (k - (20 + W))) 8

/-- The byte of the rest of formats Q and P (R63, R64) the registers hold for offset `20 ≤ k < 24`. -/
def Fields.prqFixedByte (x : Fields) (k : Nat) : Byte :=
  if k = 20 then x.pdoVersion
  else if k = 21 then x.reserved2
  else x.size.extractLsb' (8 * lane .little 2 (k - 22)) 8

/-- The byte a frame of class `c` stored for offset `k`, read back from the place R162's table gives it. -/
def State.frameByte (c : MessageType) (s : State) (k : Nat) : Byte :=
  if k < 17 then s.x.headerByte k
  else if k < 20 then s.x.bodyStartByte k
  else if c = .soc then s.x.socTimesByte s.cfg.netTimeBytes k
  else if k < 24 then s.x.prqFixedByte k
  else s.payload.cell (k - 24)

theorem State.frameByte_header {s : State} {k : Nat} (c : MessageType) (hk : k < 17) :
    s.frameByte c k = s.x.headerByte k := if_pos hk

theorem State.frameByte_soc {s : State} {k : Nat} (hk : 17 ≤ k) :
    s.frameByte .soc k = if k < 20 then s.x.bodyStartByte k else s.x.socTimesByte s.cfg.netTimeBytes k :=
  if_neg (by omega)

theorem State.frameByte_prq {s : State} {c : MessageType} {k : Nat} (hc : isPrq c) (hk : 17 ≤ k) :
    s.frameByte c k = if k < 20 then s.x.bodyStartByte k
      else if k < 24 then s.x.prqFixedByte k else s.payload.cell (k - 24) := by
  have hsoc : c ≠ .soc := by rcases hc with rfl | rfl <;> decide
  rw [State.frameByte, if_neg (by omega), if_neg hsoc]

/-- The offsets at which a frame of class `c` has a row in R162's table. -/
def hasRow (c : MessageType) (W k : Nat) : Prop :=
  k < 17 ∨ (c = .soc ∧ k < 28 + W) ∨ (isPrq c ∧ k < 280)

/-! ### Read after write -/

/-- Lane `k` after lane `j` was written. -/
theorem extractLsb'_setLane {n : Nat} (r : BitVec n) (d : Byte) {j k : Nat} (hk : 8 * k + 8 ≤ n) :
    (setLane r j d).extractLsb' (8 * k) 8 = if k = j then d else r.extractLsb' (8 * k) 8 := by
  apply BitVec.eq_of_getLsbD_eq
  intro i hi
  rw [BitVec.getLsbD_extractLsb', setLane_getLsbD _ _ _ (by omega)]
  by_cases hkj : k = j
  · subst hkj
    simp [hi]
  · rw [if_neg (by omega), if_neg hkj, BitVec.getLsbD_extractLsb']

/-- Byte `k` of a MAC array after byte `j` was written. -/
theorem byteAt_setIfInBounds (m : Vector Byte 6) (d : Byte) {j k : Nat} (hk : k < 6) :
    byteAt (m.setIfInBounds j d).toList k = if k = j then d else byteAt m.toList k := by
  have hlen : k < m.toList.length := by simpa using hk
  by_cases h : k = j
  · subst h; simp [byteAt, hk]
  · simp [byteAt, h, Ne.symm h]

/-- Where a byte of format H goes, register by register (R162 rows 0 to 16). -/
theorem headerStore_eq (p : Nat) (d : Byte) (x : Fields) : headerStore p d x =
    { x with
      dstMac := if p < 6 then x.dstMac.setIfInBounds p d else x.dstMac
      srcMac := if 6 ≤ p ∧ p < 12 then x.srcMac.setIfInBounds (p - 6) d else x.srcMac
      etherType := if 12 ≤ p ∧ p < 14 then setLane x.etherType (lane .big 2 (p - 12)) d else x.etherType
      msgType := if p = 14 then d else x.msgType
      dstNode := if p = 15 then d else x.dstNode
      srcNode := if p = 16 then d else x.srcNode } := by
  unfold headerStore
  split_ifs <;> first | rfl | omega

theorem headerByte_headerStore {p k : Nat} (hk : k < 17) (d : Byte) (x : Fields) :
    (headerStore p d x).headerByte k = if k = p then d else x.headerByte k := by
  rw [headerStore_eq]
  unfold Fields.headerByte
  grind [byteAt_setIfInBounds, extractLsb'_setLane, lane]

/-- Where a byte of the body of format S goes (R162 rows 17 to 27 + W). -/
theorem socStore_eq_of_ge {W p : Nat} (hp : 17 ≤ p) (d : Byte) (x : Fields) : socStore W p d x =
    { x with
      body0 := if p = 17 then d else x.body0
      flag1 := if p = 18 then d else x.flag1
      flag2 := if p = 19 then d else x.flag2
      netTime := if 20 ≤ p ∧ p < 20 + W then setLane x.netTime (lane .little W (p - 20)) d else x.netTime
      relTime := if 20 + W ≤ p ∧ p < 28 + W then setLane x.relTime (lane .little 8 (p - (20 + W))) d
        else x.relTime } := by
  unfold socStore bodyStartStore socTimesStore
  split_ifs <;> first | rfl | omega

/-- Where a byte of the fixed part of formats Q and P goes (R162 rows 17 to 23). -/
theorem prqStore_eq_of_ge {p : Nat} (hp : 17 ≤ p) (d : Byte) (x : Fields) : prqStore p d x =
    { x with
      body0 := if p = 17 then d else x.body0
      flag1 := if p = 18 then d else x.flag1
      flag2 := if p = 19 then d else x.flag2
      pdoVersion := if p = 20 then d else x.pdoVersion
      reserved2 := if p = 21 then d else x.reserved2
      size := if 22 ≤ p ∧ p < 24 then setLane x.size (lane .little 2 (p - 22)) d else x.size } := by
  unfold prqStore bodyStartStore prqFixedStore
  split_ifs <;> first | rfl | omega

/-- A header byte is read back, whatever the class, and no other byte changes. -/
theorem frameByte_storeHeader {s : State} (c : MessageType) (d : Byte) (k : Nat) (hp : s.pos.toNat < 17) :
    (storeHeader d s).frameByte c k = if k = s.pos.toNat then d else s.frameByte c k := by
  by_cases hk : k < 17
  · simp [State.frameByte, hk, headerByte_headerStore hk]
  · simp [State.frameByte, hk, Fields.bodyStartByte, Fields.socTimesByte, Fields.prqFixedByte, headerStore_body,
      show k ≠ s.pos.toNat by omega]

theorem frameByte_storeSoc {s : State} {k : Nat} (d : Byte) (hp : 17 ≤ s.pos.toNat)
    (hk : k < 28 + s.cfg.netTimeBytes) :
    (storeSoc d s).frameByte .soc k = if k = s.pos.toNat then d else s.frameByte .soc k := by
  have hW := netTimeBytes_range s.cfg
  simp only [storeSoc, socStore_eq_of_ge hp]
  unfold State.frameByte Fields.headerByte Fields.bodyStartByte Fields.socTimesByte
  grind [extractLsb'_setLane, lane]

theorem frameByte_storePrq {s : State} {k : Nat} {c : MessageType} (hc : isPrq c) (d : Byte) (hp : 17 ≤ s.pos.toNat)
    (hp' : s.pos.toNat < 280) :
    (storePrq d s).frameByte c k = if k = s.pos.toNat then d else s.frameByte c k := by
  have hsoc : c ≠ .soc := by rcases hc with rfl | rfl <;> decide
  have hcell (h : 24 ≤ k) : (payloadStore s.pos.toNat d s.payload).cell (k - 24) =
      if k = s.pos.toNat then d else s.payload.cell (k - 24) := by
    by_cases h24 : 24 ≤ s.pos.toNat
    · rw [payloadStore_of_mem h24 hp', Memory.cell_write]
      simp only [show k - 24 = s.pos.toNat - 24 ↔ k = s.pos.toNat by omega]
    · rw [payloadStore_of_lt (not_le.1 h24), if_neg (by omega)]
  simp only [storePrq, prqStore_eq_of_ge hp]
  unfold State.frameByte Fields.headerByte Fields.bodyStartByte Fields.prqFixedByte
  grind [extractLsb'_setLane, lane]

/-- Read after write: the byte accepted at an offset the class has a row for is read back at that offset, and the bytes
of the other offsets are those read before. -/
theorem frameByte_storeOf {s : State} {c : MessageType} {k : Nat} (d : Byte)
    (hp : hasRow c s.cfg.netTimeBytes s.pos.toNat) (hk : hasRow c s.cfg.netTimeBytes k) :
    (storeOf c d s).frameByte c k = if k = s.pos.toNat then d else s.frameByte c k := by
  by_cases h17 : s.pos.toNat < 17
  · rw [storeOf_header c d h17, frameByte_storeHeader c d k h17]
  have hge := not_lt.1 h17
  rcases hp with h | ⟨rfl, -⟩ | ⟨hc, h⟩
  · exact absurd h h17
  · exact frameByte_storeSoc d hge (by simp [hasRow, isPrq] at hk; omega)
  · rw [show storeOf c = storePrq by rcases hc with rfl | rfl <;> rfl]
    exact frameByte_storePrq hc d hge h

end Sys2Proof.Machine
end

section
/-! PROOFS for 10_state.md, part 6: the function `Decode` outcome by outcome (R110, R118, R130, R140 to R147), and the
values of registers whose bytes are those of a frame. -/

namespace Sys2Proof

/-! ### `Decode`, outcome by outcome -/

/-- The Soc body of a frame (R130). -/
def socBodyOf (c : Config) (B : List Byte) : SocBody :=
  { reserved1 := byteAt B 17
    flag1 := byteAt B 18
    flag2 := byteAt B 19
    netTime := BitVec.ofNat 64 (leValue (memRead B 20 c.netTimeBytes))
    relativeTime := readLE64 B (20 + c.netTimeBytes) }

/-- The Preq or Pres body of a frame (R140, R141). -/
def prqBodyOf (B : List Byte) : PrqBody :=
  { first := byteAt B 17
    flag1 := byteAt B 18
    flag2 := byteAt B 19
    pdoVersion := byteAt B 20
    reserved2 := byteAt B 21
    size := readLE16 B 22
    payload := memRead B 24 (readLE16 B 22).toNat }

theorem decodeSoc_short {c : Config} {B : List Byte} (h : B.length < 28 + c.netTimeBytes) :
    decodeSoc c B 17 = .error .truncatedBuffer := if_pos (by omega)

theorem decodeSoc_ok {c : Config} {B : List Byte} (h : 28 + c.netTimeBytes ≤ B.length) :
    decodeSoc c B 17 = .ok (socBodyOf c B, 11 + c.netTimeBytes) := if_neg (by omega)

theorem decodePrq_short {B : List Byte}
    (h : B.length < 24 ∨ (readLE16 B 22).toNat ≤ 256 ∧ B.length < 24 + (readLE16 B 22).toNat) :
    decodePrq B 17 = .error .truncatedBuffer := by
  simp only [decodePrq, Nat.reduceAdd]
  split_ifs
  · rfl
  · omega
  · rfl
  · omega

theorem decodePrq_tooLong {B : List Byte} (hlen : 24 ≤ B.length) (hs : 256 < (readLE16 B 22).toNat) :
    decodePrq B 17 = .error .sizeOutOfRange := by
  rw [decodePrq, if_neg (by omega), if_pos hs]

theorem decodePrq_ok {B : List Byte} (hs : (readLE16 B 22).toNat ≤ 256)
    (hlen : 24 + (readLE16 B 22).toNat ≤ B.length) :
    decodePrq B 17 = .ok (prqBodyOf B, 7 + (readLE16 B 22).toNat) := by
  simp only [decodePrq, Nat.reduceAdd]
  rw [if_neg (by omega), if_neg (not_lt.2 hs), if_neg (by omega)]
  rfl

theorem decodeFrame_short {c : Config} {B : List Byte} (h : B.length < 17) : decodeFrame c B = .truncatedBuffer :=
  if_pos h

section
variable {c : Config} {B : List Byte} (hlen : 17 ≤ B.length)
include hlen

theorem decodeFrame_unknown (hc : classify (byteAt B 14) = .unknown) :
    decodeFrame c B = .unknownMessageType (decodeHeader B) := by
  rw [decodeFrame, if_neg (not_lt.2 hlen), hc]; rfl

theorem decodeFrame_noBody (hc : Machine.isNoBody (classify (byteAt B 14))) :
    decodeFrame c B = .noBodyLayout (decodeHeader B) := by
  rw [decodeFrame, if_neg (not_lt.2 hlen)]
  rcases hc with hc | hc | hc | hc | hc <;> rw [hc] <;> rfl

theorem decodeFrame_soc (hc : classify (byteAt B 14) = .soc) :
    decodeFrame c B = .ofBody (decodeHeader B) .soc (decodeSoc c B 17) := by
  rw [decodeFrame, if_neg (not_lt.2 hlen), hc]

theorem decodeFrame_preq (hc : classify (byteAt B 14) = .preq) :
    decodeFrame c B = .ofBody (decodeHeader B) .preq (decodePrq B 17) := by
  rw [decodeFrame, if_neg (not_lt.2 hlen), hc]

theorem decodeFrame_pres (hc : classify (byteAt B 14) = .pres) :
    decodeFrame c B = .ofBody (decodeHeader B) .pres (decodePrq B 17) := by
  rw [decodeFrame, if_neg (not_lt.2 hlen), hc]

theorem decodeFrame_soc_ok (hc : classify (byteAt B 14) = .soc) (h : 28 + c.netTimeBytes ≤ B.length) :
    decodeFrame c B = .ok { header := decodeHeader B, body := .soc (socBodyOf c B), consumed := 28 + c.netTimeBytes } := by
  rw [decodeFrame_soc hlen hc, decodeSoc_ok h, Result.ofBody, ← Nat.add_assoc]

theorem decodeFrame_preq_ok (hc : classify (byteAt B 14) = .preq) (hs : (readLE16 B 22).toNat ≤ 256)
    (h : 24 + (readLE16 B 22).toNat ≤ B.length) : decodeFrame c B =
      .ok { header := decodeHeader B, body := .preq (prqBodyOf B), consumed := 24 + (readLE16 B 22).toNat } := by
  rw [decodeFrame_preq hlen hc, decodePrq_ok hs h, Result.ofBody, ← Nat.add_assoc]

theorem decodeFrame_pres_ok (hc : classify (byteAt B 14) = .pres) (hs : (readLE16 B 22).toNat ≤ 256)
    (h : 24 + (readLE16 B 22).toNat ≤ B.length) : decodeFrame c B =
      .ok { header := decodeHeader B, body := .pres (prqBodyOf B), consumed := 24 + (readLE16 B 22).toNat } := by
  rw [decodeFrame_pres hlen hc, decodePrq_ok hs h, Result.ofBody, ← Nat.add_assoc]

/-- The two errors of `DecodePrq` (R145, R146) are those of the frame, for Preq and Pres alike. -/
theorem decodeFrame_prq_fatal {k : ErrorKind} (hc : Machine.isPrq (classify (byteAt B 14)))
    (h : decodePrq B 17 = .error k) : decodeFrame c B = .ofError (decodeHeader B) k := by
  rcases hc with hc | hc
  · rw [decodeFrame_preq hlen hc, h]; rfl
  · rw [decodeFrame_pres hlen hc, h]; rfl

end

/-- A frame that ends before what its class needs is truncated (R111, R130, R147). -/
theorem decodeFrame_truncated {c : Config} {B : List Byte}
    (h : B.length < 17 ∨ (classify (byteAt B 14) = .soc ∧ B.length < 28 + c.netTimeBytes) ∨
      (Machine.isPrq (classify (byteAt B 14)) ∧
        (B.length < 24 ∨ (readLE16 B 22).toNat ≤ 256 ∧ B.length < 24 + (readLE16 B 22).toNat))) :
    decodeFrame c B = .truncatedBuffer := by
  by_cases hlen : B.length < 17
  · exact decodeFrame_short hlen
  rcases h with h | ⟨hc, h⟩ | ⟨hc, h⟩
  · exact absurd h hlen
  · rw [decodeFrame_soc (not_lt.1 hlen) hc, decodeSoc_short h]; rfl
  · rw [decodeFrame_prq_fatal (not_lt.1 hlen) hc (decodePrq_short h)]; rfl

end Sys2Proof

namespace Sys2Proof.Machine

/-! ### Registers from their bytes -/

/-- A MAC register holding six bytes of the frame. -/
theorem eq_macAt {m : Vector Byte 6} {B : List Byte} {o : Nat}
    (h : ∀ k, k < 6 → byteAt m.toList k = byteAt B (o + k)) : m = macAt B o := by
  apply Vector.ext
  intro i hi
  have hm : m[i] = byteAt B (o + i) := by simpa [byteAt, hi] using h i hi
  rw [hm]
  interval_cases i <;> rfl

/-- A register whose byte lanes hold the bytes of a list, and nothing above them, holds the list's little-endian
value. -/
theorem eq_ofNat_leValue {n : Nat} {r : BitVec n} {bs : List Byte} (hz : r.toNat < 2 ^ (8 * bs.length))
    (h : ∀ k, k < bs.length → r.extractLsb' (8 * k) 8 = byteAt bs k) : r = BitVec.ofNat n (leValue bs) := by
  apply BitVec.eq_of_getLsbD_eq
  intro i hi
  rw [BitVec.getLsbD_ofNat, leValue_testBit, decide_eq_true hi, Bool.true_and]
  by_cases hb : i / 8 < bs.length
  · rw [← h _ hb, BitVec.getLsbD_extractLsb', decide_eq_true (Nat.mod_lt i (by decide)), Bool.true_and,
      Nat.div_add_mod]
  · rw [(toNat_lt_two_pow_iff r _).1 hz i (by omega)]
    simp [byteAt, List.getElem?_eq_none (not_lt.1 hb)]

/-- The same for a list read from a frame. -/
theorem eq_ofNat_leValue_memRead {n m o : Nat} {r : BitVec n} {B : List Byte} (hlen : o + m ≤ B.length)
    (hz : r.toNat < 2 ^ (8 * m)) (h : ∀ k, k < m → r.extractLsb' (8 * k) 8 = byteAt B (o + k)) :
    r = BitVec.ofNat n (leValue (memRead B o m)) := by
  have hm := memRead_length hlen
  refine eq_ofNat_leValue (by rwa [hm]) fun k hk => ?_
  rw [hm] at hk
  rw [h k hk, byteAt_memRead _ _ _ _ hk]

/-- A 16-bit register holding two bytes of the frame, the first one high. -/
theorem eq_readBE16 {r : BitVec 16} {B : List Byte} {o : Nat} (hlen : o + 2 ≤ B.length)
    (h : ∀ k, k < 2 → r.extractLsb' (8 * lane .big 2 k) 8 = byteAt B (o + k)) : r = readBE16 B o := by
  have hmem : memRead B o 2 = [byteAt B o, byteAt B (o + 1)] := by
    rw [memRead_succ (by omega), memRead_succ (by omega), memRead_zero]
  have hbe : readBE16 B o = BitVec.ofNat 16 (leValue [byteAt B (o + 1), byteAt B o]) := by
    rw [readBE16, hmem, ← beValue_reverse]; rfl
  rw [hbe]
  refine eq_ofNat_leValue r.isLt fun k hk => ?_
  obtain rfl | rfl : k = 0 ∨ k = 1 := by simp at hk; omega
  · exact h 1 (by decide)
  · exact h 0 (by decide)

/-- The read port delivers the bytes of the frame that the cells hold. -/
theorem view_eq_memRead {m : Memory} {B : List Byte} {o n : Nat} (hlen : o + n ≤ B.length)
    (h : ∀ i, i < n → m.cell i = byteAt B (o + i)) : m.view n = memRead B o n := by
  have hm := memRead_length hlen
  apply List.ext_getElem (by simp [Memory.view, hm])
  intro i hi hi'
  rw [hm] at hi'
  simp [Memory.view, memRead, h i hi', byteAt, List.getElem?_eq_getElem (show o + i < B.length by omega)]

end Sys2Proof.Machine
end

section
/-! PROOFS for 10_state.md, part 7: the machine reads a frame as `Decode` does (R173), so that what an earlier frame left
takes no part in the result (R22). -/

namespace Sys2Proof.Machine

/-! ### What the parser holds of the bytes it has accepted -/

/-- Since a frame began the bytes of `B` have been accepted: the decode is on track, and the registers hold the bytes up
to the offset `pos`, which in PARSE is all of them. -/
structure State.HasRead (c : Config) (B : List Byte) (s : State) : Prop where
  onTrack : s.OnTrack
  resValid : s.resValid = false
  net_time : s.netTimeInWidth
  cfg : s.cfg = c
  pos_le : s.pos.toNat ≤ B.length
  pos_parse : s.phase = .parse → s.pos.toNat = B.length
  bytes : ∀ k, k < s.pos.toNat → s.frameByte (classify s.x.msgType) k = byteAt B k

theorem State.hasRead_nil {s : State} (h : s.atFrameStart) (hn : s.netTimeInWidth) : s.HasRead s.cfg [] := by
  obtain ⟨hv, hpos, hp⟩ := h
  have h0 : s.pos.toNat = 0 := by simp [hpos]
  exact ⟨.of_parse hp (.inl (by omega)), hv, hn, rfl, h0.le, fun _ => h0, fun k hk => by omega⟩

@[simp] theorem frameByte_advance (c : MessageType) (s : State) (k : Nat) :
    s.advance.frameByte c k = s.frameByte c k := rfl

@[simp] theorem frameByte_settleOf (c c' : MessageType) (s : State) (k : Nat) :
    (settleOf c' s).frameByte c k = s.frameByte c k := by simp [State.frameByte]

theorem hasRow_mono {c : MessageType} {W j k : Nat} (h : hasRow c W k) (hj : j ≤ k) : hasRow c W j :=
  h.imp hj.trans_lt (Or.imp (And.imp_right hj.trans_lt) (And.imp_right hj.trans_lt))

/-- While more bytes are needed, the coming one has a row in the class's store table. -/
theorem hasRow_of_needsMore {s : State} (d : Byte) (h : s.needsMore) :
    hasRow (classify (s.tagWith d)) s.cfg.netTimeBytes s.pos.toNat := by
  by_cases hlo : s.pos.toNat < 17
  · exact .inl hlo
  rw [State.tagWith_of_ge d (not_lt.1 hlo)]
  rcases h with h | ⟨hc, h⟩ | ⟨hc, h⟩
  · exact .inl h
  · exact .inr (.inl ⟨hc, h⟩)
  · exact .inr (.inr ⟨hc, by omega⟩)

/-- A byte that DRAIN discards is not looked at (R168). -/
theorem State.HasRead.discard {c : Config} {B : List Byte} {s : State} (d : Byte) (h : s.HasRead c B)
    (hp : s.phase = .drain) : s.HasRead c (B ++ [d]) := by
  have hle := h.pos_le
  exact { h with
    pos_le := by simp; omega
    pos_parse := fun hp' => by simp [hp] at hp'
    bytes := fun k hk => by rw [h.bytes k hk, byteAt_append_left (by omega)] }

/-- The byte stored at offset `pos` is read back there, and those before it still are (R162, R163). -/
theorem State.HasRead.bytes_accept {c : Config} {B : List Byte} {s : State} (d : Byte) (h : s.HasRead c B)
    (hp : s.phase = .parse) (k : Nat) (hk : k ≤ s.pos.toNat) :
    (s.accept d).frameByte (classify (s.accept d).x.msgType) k = byteAt (B ++ [d]) k := by
  have hpos := h.pos_parse hp
  have hrow := hasRow_of_needsMore d (h.onTrack.parsing hp)
  have hmsg : (s.accept d).x.msgType = s.tagWith d := by
    simpa [s.accept_parse d hp] using storeOf_msgType_tagWith d hp
  rw [hmsg, s.accept_parse d hp, frameByte_settleOf, frameByte_advance, frameByte_storeOf d hrow (hasRow_mono hrow hk)]
  split_ifs with hk'
  · rw [hk', hpos, byteAt_append_right le_rfl, Nat.sub_self, byteAt_zero]
  · rw [byteAt_append_left (by omega), ← h.bytes k (by omega)]
    by_cases hlo : k < 17
    · rw [State.frameByte_header _ hlo, State.frameByte_header _ hlo]
    · rw [State.tagWith_of_ge d (by omega)]

theorem State.HasRead.accept {c : Config} {B : List Byte} {s : State} (d : Byte) (h : s.HasRead c B) :
    (s.accept d).HasRead c (B ++ [d]) := by
  rcases s.phase.parse_or_drain with hp | hp
  · have hlt := needsMore_lt (h.onTrack.parsing hp)
    have hpos : (s.accept d).pos.toNat = s.pos.toNat + 1 := by
      rw [s.accept_pos_parse d hp, pos_succ_toNat (by omega)]
    have hlen : (s.accept d).pos.toNat = (B ++ [d]).length := by simp [hpos, h.pos_parse hp]
    exact {
      onTrack := h.onTrack.accept d
      resValid := by simp [h.resValid]
      net_time := s.accept_netTimeInWidth d h.net_time
      cfg := by simp [h.cfg]
      pos_le := hlen.le
      pos_parse := fun _ => hlen
      bytes := fun k hk => h.bytes_accept d hp k (by omega) }
  · rw [s.accept_drain d hp]
    exact h.discard d hp

/-- A frame accepted byte by byte is read whole. -/
theorem State.HasRead.acceptAll {c : Config} {A : List Byte} {s : State} (B : List Byte) (h : s.HasRead c A) :
    (s.acceptAll B).HasRead c (A ++ B) := by
  induction B generalizing A s with
  | nil => simpa using h
  | cons d B ih => simpa using ih (h.accept d)

/-! ### The registers of a frame that has been read -/

section
variable {c : Config} {B : List Byte} {s : State} (h : s.HasRead c B)
include h

/-- Once 17 bytes are in, the header registers hold them (R112 to R117). -/
theorem State.HasRead.headerView (h17 : 17 ≤ s.pos.toNat) : s.headerView = decodeHeader B := by
  have hlen := h.pos_le
  have hbyte (k : Nat) (hk : k < 17) : s.x.headerByte k = byteAt B k := by
    rw [← h.bytes k (by omega), State.frameByte_header _ hk]
  have hdst : s.x.dstMac = macAt B 0 := eq_macAt fun k hk => by
    simpa [Fields.headerByte, hk] using hbyte k (by omega)
  have hsrc : s.x.srcMac = macAt B 6 := eq_macAt fun k hk => by
    have := hbyte (6 + k) (by omega)
    rwa [Fields.headerByte, if_neg (by omega), if_pos (by omega), Nat.add_sub_cancel_left] at this
  have heth : s.x.etherType = readBE16 B 12 := eq_readBE16 (by omega) fun k hk => by
    have := hbyte (12 + k) (by omega)
    rwa [Fields.headerByte, if_neg (by omega), if_neg (by omega), if_pos (by omega), Nat.add_sub_cancel_left] at this
  have htag : s.x.msgType = byteAt B 14 := hbyte 14 (by decide)
  have hdn : s.x.dstNode = byteAt B 15 := hbyte 15 (by decide)
  have hsn : s.x.srcNode = byteAt B 16 := hbyte 16 (by decide)
  simp [State.headerView, decodeHeader, hdst, hsrc, heth, htag, hdn, hsn]

theorem State.HasRead.msgType (h17 : 17 ≤ s.pos.toNat) : s.x.msgType = byteAt B 14 :=
  congrArg Header.messageType (h.headerView h17)

/-- A Soc frame's body registers hold it once `28 + W` bytes are in (R130). -/
theorem State.HasRead.socView (hc : classify s.x.msgType = .soc) (hpos : 28 + c.netTimeBytes ≤ s.pos.toNat) :
    s.socView = socBodyOf c B := by
  have hlen := h.pos_le
  have hW := netTimeBytes_range c
  have hn := h.net_time
  rw [State.netTimeInWidth, h.cfg] at hn
  have hbyte (k : Nat) (hk : 17 ≤ k ∧ k < 28 + c.netTimeBytes) :
      (if k < 20 then s.x.bodyStartByte k else s.x.socTimesByte c.netTimeBytes k) = byteAt B k := by
    rw [← h.bytes k (by omega), hc, State.frameByte_soc hk.1, h.cfg]
  have hnet : s.x.netTime = BitVec.ofNat 64 (leValue (memRead B 20 c.netTimeBytes)) :=
    eq_ofNat_leValue_memRead (by omega) hn fun k hk => by
      have := hbyte (20 + k) (by omega)
      rwa [if_neg (by omega), Fields.socTimesByte, if_pos (by omega), Nat.add_sub_cancel_left] at this
  have hrel : s.x.relTime = readLE64 B (20 + c.netTimeBytes) :=
    eq_ofNat_leValue_memRead (by omega) s.x.relTime.isLt fun k hk => by
      have := hbyte (20 + c.netTimeBytes + k) (by omega)
      rwa [if_neg (by omega), Fields.socTimesByte, if_neg (by omega), Nat.add_sub_cancel_left] at this
  have hb : s.x.body0 = byteAt B 17 := hbyte 17 (by omega)
  have hf1 : s.x.flag1 = byteAt B 18 := hbyte 18 (by omega)
  have hf2 : s.x.flag2 = byteAt B 19 := hbyte 19 (by omega)
  simp [State.socView, socBodyOf, hb, hf1, hf2, hnet, hrel]

/-- The bytes of a Preq or Pres body that are in (R140, R141). -/
theorem State.HasRead.prqByte (hc : isPrq (classify s.x.msgType)) (k : Nat) (hk : 17 ≤ k) (hpos : k < s.pos.toNat) :
    (if k < 20 then s.x.bodyStartByte k else if k < 24 then s.x.prqFixedByte k else s.payload.cell (k - 24)) =
      byteAt B k := by
  rw [← h.bytes k hpos, State.frameByte_prq hc hk]

/-- The size register of a Preq or Pres frame, once it is complete (R143). -/
theorem State.HasRead.size (hc : isPrq (classify s.x.msgType)) (hpos : 24 ≤ s.pos.toNat) :
    s.x.size = readLE16 B 22 := by
  have hlen := h.pos_le
  refine eq_ofNat_leValue_memRead (by omega) s.x.size.isLt fun k hk => ?_
  have := h.prqByte hc (22 + k) (by omega) (by omega)
  rwa [if_neg (by omega), if_pos (by omega), Fields.prqFixedByte, if_neg (by omega), if_neg (by omega),
    Nat.add_sub_cancel_left] at this

/-- A Preq or Pres frame's body registers and cells hold it once the declared payload is in. -/
theorem State.HasRead.prqView (hc : isPrq (classify s.x.msgType)) (hpos : 24 + s.x.size.toNat ≤ s.pos.toNat) :
    s.prqView = prqBodyOf B := by
  have hlen := h.pos_le
  have hsize := h.size hc (by omega)
  have hbyte := h.prqByte hc
  have hpl : s.payload.view s.x.size.toNat = memRead B 24 s.x.size.toNat :=
    view_eq_memRead (by omega) fun i hi => by
    have := hbyte (24 + i) (by omega) (by omega)
    rwa [if_neg (by omega), if_neg (by omega), Nat.add_sub_cancel_left] at this
  have hb : s.x.body0 = byteAt B 17 := hbyte 17 (by decide) (by omega)
  have hf1 : s.x.flag1 = byteAt B 18 := hbyte 18 (by decide) (by omega)
  have hf2 : s.x.flag2 = byteAt B 19 := hbyte 19 (by decide) (by omega)
  have hv : s.x.pdoVersion = byteAt B 20 := hbyte 20 (by decide) (by omega)
  have hr : s.x.reserved2 = byteAt B 21 := hbyte 21 (by decide) (by omega)
  rw [State.prqView, hpl, hsize, hb, hf1, hf2, hv, hr, prqBodyOf]

/-! ### The posted result -/

/-- The frame boundary in PARSE: the frame is truncated. -/
theorem State.HasRead.decodeFrame_parse (hp : s.phase = .parse) : decodeFrame c B = .truncatedBuffer := by
  have hpos := h.pos_parse hp
  apply decodeFrame_truncated
  by_cases h17 : B.length < 17
  · exact .inl h17
  rw [← h.msgType (by omega), ← h.cfg, ← hpos]
  rcases h.onTrack.parsing hp with hlt | hsoc | ⟨hc, hlt⟩
  · exact .inl hlt
  · exact .inr (.inl hsoc)
  · refine .inr (.inr ⟨hc, ?_⟩)
    by_cases h24 : s.pos.toNat < 24
    · exact .inl h24
    · rw [← h.size hc (not_lt.1 h24)]
      exact hlt

end

/-- R173: at the frame boundary the posted result, its code and `consumed` are those of `Decode`. -/
theorem State.HasRead.posts {c : Config} {B : List Byte} {s : State} (h : s.HasRead c B) :
    s.boundary.result = some (decodeFrame c B) ∧ s.boundary.st = resultStatus (decodeFrame c B) ∧
      s.boundary.pos.toNat = resultConsumed B.length (decodeFrame c B) := by
  have hv := s.boundary_resValid
  rcases s.phase.parse_or_drain with hp | hp
  · have hst : s.boundary.st = 1 := by simp [hp, errorCode]
    rw [State.result_truncated hv hst, h.decodeFrame_parse hp, hst, s.boundary_pos, h.pos_parse hp]
    exact ⟨rfl, rfl, rfl⟩
  have hdec := h.onTrack.draining hp
  have h17 := (decided_pos hdec).1
  have hlen := h.pos_le
  have hlen17 := h17.trans hlen
  have hhead := h.headerView h17
  have hcls : classify s.x.msgType = classify (byteAt B 14) := by rw [h.msgType h17]
  have hbd : s.boundary = { s with resValid := true } := by simp [State.boundary, hp]
  rw [hbd] at hv ⊢
  rcases hdec with ⟨hst, hc, hpos⟩ | ⟨hst, hc, hs, hpos⟩ | ⟨hst, hc, hpos⟩ | ⟨hst, hc, hs, hpos⟩ | ⟨hst, hc, hpos⟩
  · rw [h.cfg] at hpos
    rw [State.result_ok hv hst, State.bodyView_soc (by exact hc), decodeFrame_soc_ok hlen17 (hcls ▸ hc) (hpos ▸ hlen),
      ← hhead, ← h.socView hc hpos.ge, ← hpos]
    exact ⟨rfl, hst, rfl⟩
  · have hsize := h.size hc (by omega)
    have hview := h.prqView hc hpos.ge
    rw [hsize] at hs hpos
    rw [State.result_ok hv hst]
    rcases hc with hc | hc
    · rw [State.bodyView_preq (by exact hc), decodeFrame_preq_ok hlen17 (hcls ▸ hc) hs (hpos ▸ hlen),
        ← hhead, ← hview, ← hpos]
      exact ⟨rfl, hst, rfl⟩
    · rw [State.bodyView_pres (by exact hc), decodeFrame_pres_ok hlen17 (hcls ▸ hc) hs (hpos ▸ hlen),
        ← hhead, ← hview, ← hpos]
      exact ⟨rfl, hst, rfl⟩
  · rw [State.result_unknown hv hst, decodeFrame_unknown hlen17 (hcls ▸ hc), ← hhead]
    exact ⟨rfl, hst, hpos⟩
  · rw [h.size hc (by omega)] at hs
    rw [State.result_sizeOutOfRange hv hst,
      decodeFrame_prq_fatal hlen17 (hcls ▸ hc) (decodePrq_tooLong (hpos ▸ hlen) hs)]
    exact ⟨rfl, hst, hpos⟩
  · rw [State.result_noBody hv hst, decodeFrame_noBody hlen17 (hcls ▸ hc), ← hhead]
    exact ⟨rfl, hst, hpos⟩

end Sys2Proof.Machine
end

section
/-! PROOFS for 10_state.md, part 8: what R23 marks valid is what the posted result says (R120), and R22. -/

namespace Sys2Proof.Machine

/-! ### Equal views are equal outputs -/

theorem agreeOn_header_of_headerView {t t' : State} (h : t.headerView = t'.headerView) : t.agreeOn t' .header := by
  simp only [State.headerView, Header.mk.injEq] at h
  obtain ⟨hdst, hsrc, heth, htag, -, hdn, hsn⟩ := h
  exact ⟨hdst, hsrc, heth, htag, hdn, hsn⟩

theorem agreeOn_of_socView {t t' : State} (h : t.socView = t'.socView) :
    t.agreeOn t' .bodyStart ∧ t.agreeOn t' .socTimes := by
  simp only [State.socView, SocBody.mk.injEq] at h
  obtain ⟨hb, hf1, hf2, hnet, hrel⟩ := h
  exact ⟨⟨hb, hf1, hf2⟩, hnet, hrel⟩

theorem agreeOn_of_prqView {t t' : State} (h : t.prqView = t'.prqView) :
    t.agreeOn t' .bodyStart ∧ t.agreeOn t' .prqFixed ∧ t.agreeOn t' .payloadBelowSize := by
  simp only [State.prqView, PrqBody.mk.injEq] at h
  obtain ⟨hb, hf1, hf2, hv, hr, hsize, hpl⟩ := h
  rw [← hsize] at hpl
  exact ⟨⟨hb, hf1, hf2⟩, ⟨hv, hr, hsize⟩, fun i hi => List.map_inj_left.1 hpl i (List.mem_range.2 hi)⟩

/-! ### Two posted results that are the same -/

section
variable {t t' : State} (hv : t.resValid = true) (hv' : t'.resValid = true) (hst : t.st = t'.st)
  (hr : t.result = t'.result) (hsome : t.result.isSome)
include hv hv' hst hr hsome

/-- With status OK, header and body are the same. -/
theorem views_eq_of_result_ok (hok : t.st = 0) :
    t.headerView = t'.headerView ∧ ∃ b, t.bodyView = some b ∧ t'.bodyView = some b := by
  rw [State.result_ok hv hok] at hsome hr
  rw [State.result_ok hv' (hst ▸ hok)] at hr
  obtain ⟨b, hb⟩ := Option.isSome_iff_exists.1 (Option.isSome_map ▸ hsome)
  rw [hb, Option.map_some, eq_comm, Option.map_eq_some_iff] at hr
  obtain ⟨b', hb', he⟩ := hr
  obtain ⟨hhead, rfl, -⟩ := Envelope.mk.inj (Result.ok.inj he)
  exact ⟨hhead.symm, b', hb, hb'⟩

/-- The header columns of R23 are valid with the results that carry the header, and with no other. -/
theorem headerView_eq_of_result (hvalid : t.validOutput .header = true) : t.headerView = t'.headerView := by
  have hcode : t.st = 0 ∨ t.st = 2 ∨ t.st = 4 := by
    simpa [State.validOutput, validFor, hv, okCode, errorCode, or_assoc] using hvalid
  rcases hcode with h | h | h
  · exact (views_eq_of_result_ok hv hv' hst hr hsome h).1
  · rw [State.result_unknown hv h, State.result_unknown hv' (hst ▸ h)] at hr
    simpa using hr
  · rw [State.result_noBody hv h, State.result_noBody hv' (hst ▸ h)] at hr
    simpa using hr

/-- With status OK the valid body columns are those of the class, and they agree. -/
theorem agreeOn_body_of_result_ok (hok : t.st = 0) :
    t.agreeOn t' .bodyStart ∧ (classify t.x.msgType = .soc → t.agreeOn t' .socTimes) ∧
      (isPrq (classify t.x.msgType) → t.agreeOn t' .prqFixed ∧ t.agreeOn t' .payloadBelowSize) := by
  obtain ⟨hhead, b, hb, hb'⟩ := views_eq_of_result_ok hv hv' hst hr hsome hok
  have hcls : classify t'.x.msgType = classify t.x.msgType := (congrArg Header.cls hhead).symm
  rcases State.isSome_bodyView.1 (Option.isSome_of_eq_some hb) with hc | hc | hc
  · rw [State.bodyView_soc hc, ← hb', State.bodyView_soc (hcls.trans hc)] at hb
    obtain ⟨hstart, htimes⟩ := agreeOn_of_socView (by simpa using hb)
    exact ⟨hstart, fun _ => htimes, by simp [hc, isPrq]⟩
  · rw [State.bodyView_preq hc, ← hb', State.bodyView_preq (hcls.trans hc)] at hb
    obtain ⟨hstart, hprq⟩ := agreeOn_of_prqView (by simpa using hb)
    exact ⟨hstart, by simp [hc], fun _ => hprq⟩
  · rw [State.bodyView_pres hc, ← hb', State.bodyView_pres (hcls.trans hc)] at hb
    obtain ⟨hstart, hprq⟩ := agreeOn_of_prqView (by simpa using hb)
    exact ⟨hstart, by simp [hc], fun _ => hprq⟩

/-- The columns R23 marks valid are the same: the class is asked for with status OK only. -/
theorem validOutput_eq_of_result (g : FieldGroup) : t.validOutput g = t'.validOutput g := by
  by_cases hok : t.st = 0
  · have hhead := (views_eq_of_result_ok hv hv' hst hr hsome hok).1
    rw [State.validOutput, State.validOutput, hv, hv', hst, show classify t.x.msgType = classify t'.x.msgType from
      congrArg Header.cls hhead]
  · have hno : (t'.st == okCode) = false := beq_eq_false_iff_ne.2 (hst ▸ hok)
    cases g <;> simp [State.validOutput, validFor, hv, hv', hst, hno]

/-- Posted results that are the same, with the same code and `consumed`, are the same on every output R23 marks valid. -/
theorem agreeOn_of_result (hpos : t.pos = t'.pos) (g : FieldGroup) (hvalid : t.validOutput g = true) :
    t.agreeOn t' g := by
  have hbody := agreeOn_body_of_result_ok hv hv' hst hr hsome
  cases g
  case statusAndConsumed => exact ⟨hst, hpos⟩
  case header => exact agreeOn_header_of_headerView (headerView_eq_of_result hv hv' hst hr hsome hvalid)
  all_goals simp only [State.validOutput, validFor, hv, okCode, Bool.true_and, Bool.and_eq_true, beq_iff_eq,
    Bool.or_eq_true, Bool.false_eq_true] at hvalid
  case bodyStart => exact (hbody hvalid).1
  case socTimes => exact (hbody hvalid.1).2.1 hvalid.2
  case prqFixed => exact ((hbody hvalid.1).2.2 hvalid.2).1
  case payloadBelowSize => exact ((hbody hvalid.1).2.2 hvalid.2).2

end

/-! ### The machine implements `Decode` -/

/-- R173: the edges that deliver a frame end with its result posted, read off the registers as `Decode` gives it. -/
theorem run_delivers {s : State} {B : List Byte} {ins : List Wires} (rest : List Wires) (hs : s.atFrameStart)
    (hn : s.netTimeInWidth) (hd : Delivers ins B) :
    ∃ t : State, Sys2Proof.core.run ins.length ({ s with inputs := ins ++ rest } : State) = .next t ∧
      t.resValid = true ∧ t.inputs = rest ∧ t.cfg = s.cfg ∧ t.result = some (decodeFrame s.cfg B) ∧
      t.st = resultStatus (decodeFrame s.cfg B) ∧ t.pos.toNat = resultConsumed B.length (decodeFrame s.cfg B) := by
  have hread : (s.acceptAll B).HasRead s.cfg B := (State.hasRead_nil hs hn).acceptAll B
  obtain ⟨hres, hst, hpos⟩ := hread.posts
  refine ⟨{ (s.acceptAll B).boundary with inputs := rest }, ?_, (s.acceptAll B).boundary_resValid, rfl, ?_, hres, hst,
    hpos⟩
  · rw [run_eq_after, after_delivers rest hd hs.1]
  · rw [← hread.cfg]; exact (s.acceptAll B).boundary_cfg

/-- Settles O45: both parsers post what `Decode` gives for the frame, and the valid outputs are read off the result. -/
theorem resultDependsOnTheFrameAlone : Obligations.ResultDependsOnTheFrameAlone := by
  intro s s' B ins ins' rest rest' hs hs' hn hn' hcfg _ hd hd'
  obtain ⟨t, hrun, hv, -, -, hres, hst, hpos⟩ := run_delivers rest hs hn hd
  obtain ⟨t', hrun', hv', -, -, hres', hst', hpos'⟩ := run_delivers rest' hs' hn' hd'
  rw [← hcfg] at hres' hst' hpos'
  have hsteq : t.st = t'.st := hst.trans hst'.symm
  have hposeq : t.pos = t'.pos := BitVec.eq_of_toNat_eq (hpos.trans hpos'.symm)
  have hreq : t.result = t'.result := hres.trans hres'.symm
  have hsome : t.result.isSome := Option.isSome_of_eq_some hres
  exact ⟨t, t', hrun, hrun', hreq, fun g => ⟨validOutput_eq_of_result hv hv' hsteq hreq hsome g,
    agreeOn_of_result hv hv' hsteq hreq hsome hposeq g⟩⟩

end Sys2Proof.Machine
end

section
/-! PROOFS for 20_memory.md, part 1: the byte-order utilities (R43) as sums over the bytes of a range, their inverses, and
the frame of a write. -/

namespace Sys2Proof

/-! ### The values as sums -/

theorem leValue_eq_sum (bs : List Byte) :
    leValue bs = ∑ k ∈ Finset.range bs.length, (byteAt bs k).toNat * 2 ^ (8 * k) := by
  induction bs with
  | nil => rfl
  | cons b bs ih =>
    have hshift (k : ℕ) : (byteAt bs k).toNat * 2 ^ (8 * (k + 1)) = 256 * ((byteAt bs k).toNat * 2 ^ (8 * k)) := by ring
    simp only [leValue, ih, List.length_cons, Finset.sum_range_succ', byteAt_succ, hshift, ← Finset.mul_sum]
    simp [add_comm]

theorem beValue_eq_sum (bs : List Byte) :
    beValue bs = ∑ k ∈ Finset.range bs.length, (byteAt bs k).toNat * 2 ^ (8 * (bs.length - 1 - k)) := by
  induction bs with
  | nil => rfl
  | cons b bs ih =>
    have hexp (k : ℕ) : bs.length + 1 - 1 - (k + 1) = bs.length - 1 - k := by omega
    simp only [beValue, ih, List.length_cons, Finset.sum_range_succ', byteAt_succ, hexp]
    simp [add_comm, pow_mul]

/-! ### Reading a range inside the buffer -/

theorem leValue_memRead {B : List Byte} {o m : Nat} (h : o + m ≤ B.length) :
    leValue (memRead B o m) = ∑ k ∈ Finset.range m, (byteAt B (o + k)).toNat * 2 ^ (8 * k) := by
  rw [leValue_eq_sum, memRead_length h]
  exact Finset.sum_congr rfl fun k hk => by rw [byteAt_memRead _ _ _ _ (Finset.mem_range.1 hk)]

/-- An `m`-byte little-endian read is the sum of R43: the bytes fit in the `8·m` bits of the answer. -/
theorem toNat_ofNat_leValue_memRead {B : List Byte} {o : Nat} (m : Nat) (h : o + m ≤ B.length) :
    (BitVec.ofNat (8 * m) (leValue (memRead B o m))).toNat =
      ∑ k ∈ Finset.range m, (byteAt B (o + k)).toNat * 2 ^ (8 * k) := by
  have hlt := leValue_lt (memRead B o m)
  rw [memRead_length h, show 256 = 2 ^ 8 from rfl, ← pow_mul] at hlt
  rw [BitVec.toNat_ofNat, Nat.mod_eq_of_lt hlt, leValue_memRead h]

theorem toNat_readLE16 {B : List Byte} {o : Nat} (h : o + 2 ≤ B.length) :
    (readLE16 B o).toNat = (byteAt B o).toNat + 256 * (byteAt B (o + 1)).toNat := by
  have hsum := toNat_ofNat_leValue_memRead 2 h
  rw [Finset.sum_range_succ, Finset.sum_range_one] at hsum
  rw [readLE16, hsum]
  simp [mul_comm]

theorem toNat_readBE16 {B : List Byte} {o : Nat} (h : o + 2 ≤ B.length) :
    (readBE16 B o).toNat = 256 * (byteAt B o).toNat + (byteAt B (o + 1)).toNat := by
  have hhi := (byteAt B o).isLt
  have hlo := (byteAt B (o + 1)).isLt
  have hmem : memRead B o 2 = [byteAt B o, byteAt B (o + 1)] := by
    rw [memRead_succ (by omega), memRead_succ (by omega), memRead_zero]
  rw [readBE16, hmem, BitVec.toNat_ofNat]
  simp only [beValue, List.length_cons, List.length_nil]
  omega

/-! ### Writing a range inside the buffer -/

section
variable {B new : List Byte} {o : Nat} (h : o + new.length ≤ B.length)
include h

theorem writeAt_length : (writeAt B o new).length = B.length := by
  simp [writeAt]; omega

theorem byteAt_writeAt_inside {k : Nat} (hk : k < new.length) : byteAt (writeAt B o new) (o + k) = byteAt new k := by
  rw [← byteAt_memRead _ _ _ _ hk, memRead_writeAt h]

theorem byteAt_writeAt_outside {k : Nat} (hk : k < o ∨ o + new.length ≤ k) :
    byteAt (writeAt B o new) k = byteAt B k := by
  have htake : (B.take o).length = o := by simp; omega
  rcases hk with hk | hk
  · rw [writeAt, List.append_assoc, byteAt_append_left (by omega), byteAt_take hk]
  · have hlen : (B.take o ++ new).length = o + new.length := by rw [List.length_append, htake]
    rw [writeAt, byteAt_append_right (by omega), hlen, byteAt_drop, Nat.add_sub_cancel' hk]

end

theorem byteAt_beBytes {m k : Nat} (v : Nat) (h : k < m) :
    byteAt (beBytes m v) k = BitVec.ofNat 8 (v / 2 ^ (8 * (m - 1 - k))) := by
  rw [beBytes, byteAt_reverse (by simpa using h), leBytes_length, byteAt_leBytes v (by omega)]

/-! ### A write is the inverse of its read -/

theorem ofNat_toNat_mod (m : Nat) (v : BitVec (8 * m)) : BitVec.ofNat (8 * m) (v.toNat % 256 ^ m) = v := by
  rw [show 256 ^ m = 2 ^ (8 * m) from (pow_mul 2 8 m).symm, Nat.mod_eq_of_lt v.isLt, BitVec.ofNat_toNat,
    BitVec.setWidth_eq]

section
variable {B : List Byte} {o m : Nat} (h : o + m ≤ B.length)
include h

/-- A written range reads back, its width given by the read. -/
theorem memRead_writeAt_of_length {new : List Byte} (hnew : new.length = m) :
    memRead (writeAt B o new) o m = new := by
  subst hnew
  exact memRead_writeAt h

theorem ofNat_leValue_memRead_writeAt (v : BitVec (8 * m)) :
    BitVec.ofNat (8 * m) (leValue (memRead (writeAt B o (leBytes m v.toNat)) o m)) = v := by
  rw [memRead_writeAt_of_length h (leBytes_length m _), leValue_leBytes, ofNat_toNat_mod]

theorem ofNat_beValue_memRead_writeAt (v : BitVec (8 * m)) :
    BitVec.ofNat (8 * m) (beValue (memRead (writeAt B o (beBytes m v.toNat)) o m)) = v := by
  rw [memRead_writeAt_of_length h (beBytes_length m _), beValue_beBytes, ofNat_toNat_mod]

end

/-- Settles O5. -/
theorem byteOrderUtilities : Obligations.ByteOrderUtilities := by
  refine ⟨leValue_eq_sum, beValue_eq_sum, ?read16, ?read32, ?read64, ?inverse16, ?inverse32, ?inverse64, ?bytes, ?frame⟩
  case read16 => exact fun _ _ h => ⟨toNat_readLE16 h, toNat_readBE16 h⟩
  case read32 => exact fun _ _ h => toNat_ofNat_leValue_memRead 4 h
  case read64 => exact fun _ _ h => toNat_ofNat_leValue_memRead 8 h
  case inverse16 =>
    exact fun _ _ v h => ⟨ofNat_leValue_memRead_writeAt (m := 2) h v, ofNat_beValue_memRead_writeAt (m := 2) h v⟩
  case inverse32 => exact fun _ _ v h => ofNat_leValue_memRead_writeAt (m := 4) h v
  case inverse64 => exact fun _ _ v h => ofNat_leValue_memRead_writeAt (m := 8) h v
  case bytes => exact fun _ v _ hk => ⟨byteAt_leBytes v hk, byteAt_beBytes v hk⟩
  case frame =>
    exact fun _ _ _ h => ⟨writeAt_length h, fun _ hk => byteAt_writeAt_inside h hk,
      fun _ hk => byteAt_writeAt_outside h hk⟩

end Sys2Proof
end

section
/-! PROOFS for 20_memory.md, part 2: the endian multiplexer (R45, R65), the frame of the payload buffer (R49), and the
instruction a step fetches (R54). -/

namespace Sys2Proof.Machine

/-! ### The endian multiplexer -/

/-- Writing the lowest `m` lanes in turn leaves each with the byte written to it. -/
theorem extractLsb'_foldl_setLane {n : Nat} (r : BitVec n) (f : Nat → Byte) {m k : Nat} (hk : k < m)
    (hn : 8 * k + 8 ≤ n) :
    ((List.range m).foldl (fun x j => setLane x j (f j)) r).extractLsb' (8 * k) 8 = f k := by
  induction m with
  | zero => omega
  | succ m ih =>
    rw [List.range_succ, List.foldl_append, List.foldl_cons, List.foldl_nil, extractLsb'_setLane _ _ hn]
    split_ifs with hkm
    · rw [hkm]
    · exact ih (by omega)

/-- Writing the lowest `m` lanes in turn keeps a value within its `8·m` bits. -/
theorem foldl_setLane_toNat_lt {n : Nat} (r : BitVec n) (f : Nat → Byte) {m : Nat} (hr : r.toNat < 2 ^ (8 * m)) :
    ((List.range m).foldl (fun x j => setLane x j (f j)) r).toNat < 2 ^ (8 * m) := by
  refine List.foldlRecOn (motive := fun x : BitVec n => x.toNat < 2 ^ (8 * m)) _ _ hr fun x hx j hj => ?_
  have hjm := List.mem_range.1 hj
  exact setLane_toNat_lt x _ (by omega) hx

/-- The little-endian lanes assemble the little-endian value of the field (R65). -/
theorem foldl_setLane_little {n o m : Nat} (r : BitVec n) {B : List Byte} (hn : 8 * m ≤ n) (hlen : o + m ≤ B.length)
    (hr : r.toNat < 2 ^ (8 * m)) :
    (List.range m).foldl (fun x k => setLane x (lane .little m k) (byteAt B (o + k))) r =
      BitVec.ofNat n (leValue (memRead B o m)) :=
  eq_ofNat_leValue_memRead hlen (foldl_setLane_toNat_lt r (fun k => byteAt B (o + k)) hr) fun k hk =>
    extractLsb'_foldl_setLane r (fun k => byteAt B (o + k)) hk (by omega)

/-- The big-endian lanes of a 2-byte field assemble its big-endian value (R65). -/
theorem setLane_big16 (r : BitVec 16) {B : List Byte} {o : Nat} (hlen : o + 2 ≤ B.length) :
    setLane (setLane r (lane .big 2 0) (byteAt B o)) (lane .big 2 1) (byteAt B (o + 1)) = readBE16 B o := by
  refine eq_readBE16 hlen fun k hk => ?_
  obtain rfl | rfl : k = 0 ∨ k = 1 := by omega
  · rw [extractLsb'_setLane _ _ (by decide), if_neg (by decide), extractLsb'_setLane _ _ (by decide), if_pos rfl]; rfl
  · rw [extractLsb'_setLane _ _ (by decide), if_pos rfl]

/-- Settles O7: the little-endian fields are one lemma over the width, the 2-byte field being its two lanes. -/
theorem endianMuxAssemblesFields : Obligations.EndianMuxAssemblesFields := by
  refine ⟨fun r B o h => ⟨setLane_big16 r h, ?little16⟩, fun r B o h => ?little64, fun r B o W hW h hr => ?netTime⟩
  case little16 => exact foldl_setLane_little (m := 2) r le_rfl h r.isLt
  case little64 => exact foldl_setLane_little (m := 8) r le_rfl h r.isLt
  case netTime => exact foldl_setLane_little r (by omega) h hr

/-! ### The frame of the payload buffer -/

theorem storeOf_prq {c : MessageType} (hc : isPrq c) : storeOf c = storePrq := by rcases hc with rfl | rfl <;> rfl

theorem payloadStore_some {p a : Nat} (h : payloadIndex p = some a) (d : Byte) (m : Memory) :
    payloadStore p d m = m.write a d := by rw [payloadStore, h]

theorem payloadStore_none {p : Nat} (h : payloadIndex p = none) (d : Byte) (m : Memory) :
    payloadStore p d m = m := by rw [payloadStore, h]

/-- A store that has no payload cell leaves the buffer alone. -/
theorem storeOf_payload_of_no_cell {c : MessageType} {s : State} (d : Byte)
    (h : isPrq c → payloadIndex s.pos.toNat = none) : (storeOf c d s).payload = s.payload := by
  by_cases hc : isPrq c
  · rw [storeOf_prq hc, storePrq_payload, payloadStore_none (h hc)]
  · obtain ⟨-, -, -, hm⟩ := storeOf_prqFixed hc d s
    exact hm

/-- At any edge, a Reset included, the buffer changes by a store at most (R49, R230). -/
theorem classEdge_payload (c : MessageType) (s : State) :
    (classEdge c s).payload = s.payload ∨
      ∃ d l, s.event = .beat d l ∧ s.phase = .parse ∧ (classEdge c s).payload = (storeOf c d s).payload := by
  rcases hr : s.wires.rst
  · rcases classEdge_fields c hr with ⟨-, hm⟩ | ⟨d, l, he, hp, -, hm⟩
    · exact .inl hm
    · exact .inr ⟨d, l, he, hp, hm⟩
  · exact .inl (by rw [classEdge_reset c (State.event_reset hr)]; rfl)

theorem classEdge_payload_wf (c : MessageType) {s : State} (h : s.payload.wf) : (classEdge c s).payload.wf := by
  rcases classEdge_payload c s with hm | ⟨d, l, -, -, hm⟩ <;> rw [hm]
  · exact h
  · exact storeOf_payload_wf c d h

/-- Settles O35: the buffer changes by a store at most (`classEdge_payload`), and the store is a write to the cell
`payloadIndex` gives. -/
theorem payloadChangesOnlyAtTheBeatsCell : Obligations.PayloadChangesOnlyAtTheBeatsCell := by
  intro i s hwf
  refine ⟨_, exec_eq i s, classEdge_payload_wf i.cls hwf, fun d l a he hp hc ha => ?cell, fun h => ?kept⟩
  case cell =>
    obtain ⟨-, hm⟩ := classEdge_parse_stores i.cls he hp
    rw [hm, storeOf_prq hc, storePrq_payload, payloadStore_some ha]
    exact ⟨Memory.read_write_same _ a d, fun b hb => Memory.read_write_other _ d hb⟩
  case kept =>
    rcases classEdge_payload i.cls s with hm | ⟨d, l, he, hp, hm⟩
    · exact hm
    · rw [hm, storeOf_payload_of_no_cell d (h d l he hp)]

/-! ### The instruction a step fetches -/

/-- At offset 14 the tag in effect is the byte being accepted. -/
theorem State.tagWith_at_tag {s : State} (d : Byte) (hp : s.phase = .parse) (hpos : s.pos.toNat = 14) :
    s.tagWith d = d := if_pos ⟨hp, hpos⟩

/-- At every other edge it is the register `msg_type`. -/
theorem State.tagInEffect_elsewhere {s : State}
    (h : ∀ d l, s.event = .beat d l → s.phase = .parse → s.pos.toNat ≠ 14) : s.tagInEffect = s.x.msgType := by
  rcases he : s.event with _ | _ | ⟨d, l⟩ | _
  case beat =>
    rw [State.tagInEffect_of_beat he, State.tagWith, if_neg fun ⟨hp, hpos⟩ => h d l he hp hpos]
  all_goals rw [State.tagInEffect, he]

theorem step_eq_exec (s : State) : step s = exec (decodeTag s.tagInEffect) s := rfl

/-- Settles O14. -/
theorem stepRunsTheFetchedInstruction : Obligations.StepRunsTheFetchedInstruction := fun s =>
  ⟨fun d l he hp hpos => by rw [step_eq_exec, State.tagInEffect_of_beat he, State.tagWith_at_tag d hp hpos],
    fun h => by rw [step_eq_exec, State.tagInEffect_elsewhere h]⟩

/-! ### A table word placed on the wires (log 10) -/

theorem withFetchWord_inputs (s : State) (t : Byte) :
    ∃ rest, (s.withFetchWord 8 t.toNat).inputs = Wires.offer t false :: rest := by
  have hdrop : (tableFrame 8 t.toNat).drop 14 = t :: leBytes 265 (t.toNat / 256) := by rw [tableFrame_eq]; rfl
  exact ⟨_, by rw [State.withFetchWord, State.atTagOf, hdrop]; rfl⟩

theorem withFetchWord_event (s : State) (t : Byte) : (s.withFetchWord 8 t.toNat).event = .beat t false := by
  obtain ⟨rest, hins⟩ := withFetchWord_inputs s t
  have hw := State.wires_cons hins
  exact State.event_eq_beat_iff.2 (by rw [hw]; exact ⟨rfl, rfl, rfl, rfl, rfl⟩)

/-- Accepting the tag byte at offset 14 stores it in `msg_type` (R162, row 14). -/
theorem State.accept_msgType_at_tag {s : State} (d : Byte) (hp : s.phase = .parse) (hpos : s.pos.toNat = 14) :
    (s.accept d).x.msgType = d := by
  rw [s.accept_parse d hp, settleOf_x, State.advance_x, storeOf_msgType_tagWith d hp, State.tagWith_at_tag d hp hpos]

/-- Settles O15: the word's tag is the next byte on the wires, at offset 14. -/
theorem fetchWordRunsItsRow : Obligations.FetchWordRunsItsRow := by
  intro s t
  have he := withFetchWord_event s t
  have hp : (s.withFetchWord 8 t.toNat).phase = .parse := rfl
  have hpos : (s.withFetchWord 8 t.toNat).pos = 14 := rfl
  have hoff : (s.withFetchWord 8 t.toNat).pos.toNat = 14 := rfl
  obtain ⟨hfetch, -⟩ := stepRunsTheFetchedInstruction (s.withFetchWord 8 t.toNat)
  refine ⟨decodeTableWord_eq t, hpos, he, hfetch t false he hp hoff, _, step_beat he, ?_, ?_⟩
  · exact State.accept_msgType_at_tag t hp hoff
  · exact State.accept_pos_parse t hp

end Sys2Proof.Machine
end

section
/-! PROOFS for 30_encoding.md: the tag map (R66, R67), decoding against encoding at tag and frame level (R97), and the
fixed part of the Preq and Pres bodies (R63, R64). -/

namespace Sys2Proof

/-! ### The tag map -/

/-- The family `RowAndTag` as one statement. -/
theorem rowAndTag : ∀ i : Instr, Laws.RowAndTag.Statement i
  | .nonpowerlink => Laws.RowAndTag.nonpowerlink
  | .soc => Laws.RowAndTag.soc
  | .preq => Laws.RowAndTag.preq
  | .pres => Laws.RowAndTag.pres
  | .soa => Laws.RowAndTag.soa
  | .asnd => Laws.RowAndTag.asnd
  | .amni => Laws.RowAndTag.amni
  | .ainv => Laws.RowAndTag.ainv
  | .unknown1 => Laws.RowAndTag.unknown1
  | .unknown2 low => Laws.RowAndTag.unknown2 low
  | .unknown3 => Laws.RowAndTag.unknown3
  | .unknown4 low => Laws.RowAndTag.unknown4 low
  | .unknown5 low => Laws.RowAndTag.unknown5 low
  | .unknown6 low => Laws.RowAndTag.unknown6 low
  | .unknown7 low => Laws.RowAndTag.unknown7 low
  | .unknown8 low => Laws.RowAndTag.unknown8 low

/-- Tag `t` matches row `k` of the table: under the row's mask it is the row's match. -/
def matchesRow (t : Byte) (k : Nat) : Prop := t &&& (tagRows.getD k (0, 0)).2 = (tagRows.getD k (0, 0)).1

theorem rowIndex_lt (i : Instr) : rowIndex i < 16 := by cases i <;> simp [rowIndex]

/-- The row of the decoded instruction matches: the tag is the one the instruction is encoded to. -/
theorem matchesRow_rowIndex_decodeTag (t : Byte) : matchesRow t (rowIndex (decodeTag t)) := by
  obtain ⟨-, -, hrow⟩ := rowAndTag (decodeTag t)
  rwa [encodeTag_decodeTag] at hrow

/-- Two rows that agree on the bits both masks fix are the same row. -/
theorem row_eq_of_agree : ∀ k j : Fin 16,
    (tagRows.getD k.val (0, 0)).1 &&& (tagRows.getD j.val (0, 0)).2 =
      (tagRows.getD j.val (0, 0)).1 &&& (tagRows.getD k.val (0, 0)).2 → k = j := by decide

/-- No tag matches two rows: matching both, it would make them agree on the bits both masks fix. -/
theorem matchesRow_unique {t : Byte} {k j : Fin 16} (hk : matchesRow t k) (hj : matchesRow t j) : k = j := by
  refine row_eq_of_agree k j ?_
  rw [← hk, ← hj, BitVec.and_assoc, BitVec.and_assoc, BitVec.and_comm (tagRows.getD k.val (0, 0)).2]

/-- A tag matches exactly the row of its instruction. -/
theorem matchesRow_iff (t : Byte) (k : Fin 16) : matchesRow t k ↔ k.val = rowIndex (decodeTag t) := by
  have hown := matchesRow_rowIndex_decodeTag t
  refine ⟨fun hk => ?_, fun hk => hk ▸ hown⟩
  exact congrArg Fin.val (matchesRow_unique (j := ⟨_, rowIndex_lt (decodeTag t)⟩) hk hown)

/-- A frame with a whole header decodes by its tag (R97). -/
theorem decodeInstr_of_le {B : List Byte} (h : 17 ≤ B.length) : decodeInstr B = .ok (decodeTag (byteAt B 14)) :=
  if_neg (not_lt.2 h)

/-- Settles O2: every tag matches its instruction's row and the rows are disjoint (`matchesRow_iff`). -/
theorem everyTagSelectsExactlyOneRow : Obligations.EveryTagSelectsExactlyOneRow :=
  ⟨matchesRow_iff, rfl, Machine.decodeTag_cls,
    fun B B' h h' htag => by rw [decodeInstr_of_le h, decodeInstr_of_le h', htag]⟩

/-! ### Decoding against encoding -/

theorem decodeInstr_encodeInstr (i : Instr) : decodeInstr (encodeInstr i) = .ok i := by
  rw [encodeInstr, decodeInstr_tableFrame, decodeTag_encodeTag]

theorem decodeTableWord_encodeTag (i : Instr) : decodeTableWord 8 (encodeTag i).toNat = some i := by
  rw [decodeTableWord_eq, decodeTag_encodeTag]

/-- Settles O4: the round trips of the tag, and the tag read back from its frame. -/
theorem tagDecodeAndEncodeAgree : Obligations.TagDecodeAndEncodeAgree :=
  ⟨decodeTag_encodeTag, encodeTag_decodeTag, decodeInstr_encodeInstr, decodeTableWord_encodeTag⟩

/-- Settles O3: each word is the tag its instruction is encoded to. -/
theorem tableWordsDecodeToTheirRows : Obligations.TableWordsDecodeToTheirRows :=
  ⟨decodeTableWord_encodeTag .nonpowerlink, decodeTableWord_encodeTag .soc,
    decodeTableWord_encodeTag .preq, decodeTableWord_encodeTag .pres,
    decodeTableWord_encodeTag .soa, decodeTableWord_encodeTag .asnd,
    decodeTableWord_encodeTag .amni, decodeTableWord_encodeTag .ainv,
    decodeTableWord_encodeTag .unknown1, decodeTableWord_encodeTag (.unknown2 2),
    decodeTableWord_encodeTag .unknown3, decodeTableWord_encodeTag (.unknown4 1),
    decodeTableWord_encodeTag (.unknown5 0xE), decodeTableWord_encodeTag (.unknown6 1),
    decodeTableWord_encodeTag (.unknown7 0x3F), decodeTableWord_encodeTag (.unknown8 0x7E)⟩

end Sys2Proof

namespace Sys2Proof.Machine

/-! ### The fixed part of a Preq or Pres body -/

theorem settleOf_prq {c : MessageType} (hc : isPrq c) : settleOf c = settlePrq := by rcases hc with rfl | rfl <;> rfl

theorem isPrq_cls {i : Instr} (hi : i = .preq ∨ i = .pres) : isPrq i.cls := by
  rcases hi with rfl | rfl
  · exact .inl rfl
  · exact .inr rfl

/-- Until `size` is complete a Preq or Pres frame settles nothing. -/
theorem settlePrq_of_lt {s : State} (h : s.pos.toNat < 24) : settlePrq s = s :=
  settlePrq_elsewhere (by omega) (by omega)

/-- Until `size` is complete a Preq or Pres frame stores no payload byte. -/
theorem storePrq_of_lt {s : State} (d : Byte) (h : s.pos.toNat < 24) :
    storePrq d s = { s with x := prqStore s.pos.toNat d s.x } := by
  rw [storePrq, payloadStore_of_lt h]

/-- A beat before the last byte of `size`: one store of the table, one advance, and truncation if it is the last. -/
theorem exec_prq_before_size {i : Instr} {s : State} {d : Byte} {l : Bool} {k : Nat} (hi : i = .preq ∨ i = .pres)
    (he : s.event = .beat d l) (hp : s.phase = .parse) (hpos : s.pos.toNat = k) (hk : k < 23) :
    exec i s = .next { s with x := prqStore k d s.x, pos := BitVec.ofNat 9 (k + 1), st := if l then 1 else s.st,
                              resValid := l, inputs := s.inputs.tail } := by
  have hc := isPrq_cls hi
  have hadv : (s.pos + 1).toNat = k + 1 := by rw [pos_succ_toNat (by omega), hpos]
  have hsettle : settleOf i.cls (storeOf i.cls d s).advance = (storeOf i.cls d s).advance := by
    rw [settleOf_prq hc]
    exact settlePrq_of_lt (by rw [State.advance_pos, storeOf_pos, hadv]; omega)
  rw [exec_eq, classEdge_stays i.cls he hp hsettle, storeOf_prq hc, storePrq_of_lt d (by omega), hpos,
    pos_eq_ofNat hadv]

theorem prqStore_size_low (d : Byte) (x : Fields) :
    prqStore 22 d x = { x with size := x.size.extractLsb' 8 8 ++ d } := by
  rw [← setLane_low16]; rfl

/-- Settles O31: the beats before the last byte of `size` (`exec_prq_before_size`), each with its row of the store table
(R162). -/
theorem prqFixedPartBeats : Obligations.PrqFixedPartBeats := by
  intro i s d l hi he hp
  refine ⟨fun h => ?body0, fun h => ?flag1, fun h => ?flag2, fun h => ?pdoVersion, fun h => ?reserved2,
    fun h => ?size⟩
  case size => rw [exec_prq_before_size hi he hp h (by decide), prqStore_size_low]; rfl
  all_goals exact exec_prq_before_size hi he hp h (by decide)

end Sys2Proof.Machine
end

section
/-! PROOFS for 40_registry_classify.md: the tag map (R90), the beat that completes the header (R164), and the frames no
body decoder takes (R91 to R96). -/

namespace Sys2Proof

/-! ### The tag map -/

/-- A recognised class has one row. -/
theorem Instr.eq_of_cls_eq {i j : Instr} (hi : i.cls ≠ .unknown) (h : j.cls = i.cls) : j = i := by
  cases i
  case unknown1 | unknown2 | unknown3 | unknown4 | unknown5 | unknown6 | unknown7 | unknown8 => exact absurd rfl hi
  all_goals
    cases j <;> cases h
    rfl

/-- A tag is of a recognised class exactly when it is the tag of the class's row. -/
theorem classify_eq_cls_iff {i : Instr} (hi : i.cls ≠ .unknown) (t : Byte) : classify t = i.cls ↔ t = encodeTag i := by
  constructor
  · intro h
    rw [← Instr.eq_of_cls_eq hi ((Machine.decodeTag_cls t).trans h), encodeTag_decodeTag]
  · rintro rfl
    obtain ⟨-, hc, -⟩ := rowAndTag i
    exact hc

/-- Unknown is what the eight recognised tags leave. -/
theorem classify_eq_unknown_iff (t : Byte) : classify t = .unknown ↔
    t ≠ 0x00 ∧ t ≠ 0x01 ∧ t ≠ 0x03 ∧ t ≠ 0x04 ∧ t ≠ 0x05 ∧ t ≠ 0x06 ∧ t ≠ 0x07 ∧ t ≠ 0x0D := by
  unfold classify
  split_ifs <;> simp_all

/-- Settles O1: each recognised class by its row (`classify_eq_cls_iff`), and the rest of the byte values as ranges. -/
theorem classifyFollowsTheTagMap : Obligations.ClassifyFollowsTheTagMap := by
  refine ⟨fun _ => rfl, fun t => ⟨classify_eq_cls_iff (i := .nonpowerlink) (by decide) t,
    classify_eq_cls_iff (i := .soc) (by decide) t, classify_eq_cls_iff (i := .preq) (by decide) t,
    classify_eq_cls_iff (i := .pres) (by decide) t, classify_eq_cls_iff (i := .soa) (by decide) t,
    classify_eq_cls_iff (i := .asnd) (by decide) t, classify_eq_cls_iff (i := .amni) (by decide) t,
    classify_eq_cls_iff (i := .ainv) (by decide) t, ?unknown⟩⟩
  case unknown =>
    rw [classify_eq_unknown_iff]
    bv_omega

end Sys2Proof

namespace Sys2Proof.Machine

/-! ### The beat that completes the header -/

theorem settleOf_noBody {c : MessageType} (hc : isNoBody c) : settleOf c = settleStop .noBodyLayout := by
  rcases hc with rfl | rfl | rfl | rfl | rfl <;> rfl

theorem State.raise_nonfatal {k : ErrorKind} (hk : k ≠ .truncatedBuffer) (s : State) :
    s.raise k = { s with st := errorCode k, phase := .drain } := by
  cases k
  case truncatedBuffer => exact absurd rfl hk
  all_goals rfl

/-- The last header byte goes to `src_node`, whatever the class (R162, row 16). -/
theorem storeOf_at_header_end (c : MessageType) (d : Byte) {s : State} (hpos : s.pos.toNat = 16) :
    storeOf c d s = { s with x.srcNode := d } := by
  rw [storeOf_header c d (by omega), storeHeader, hpos]; rfl

theorem pos_succ_at_header_end {s : State} (hpos : s.pos.toNat = 16) : s.pos + 1 = 17 := by
  rw [pos_eq_ofNat hpos]; rfl

theorem advance_storeOf_pos_toNat (c : MessageType) (d : Byte) {s : State} (hpos : s.pos.toNat = 16) :
    (storeOf c d s).advance.pos.toNat = 17 := by
  rw [State.advance_pos, storeOf_pos, pos_succ_at_header_end hpos]; rfl

/-- A class no body decoder takes is settled with its outcome (R164). -/
theorem settleOf_stop_at_header_end {c : MessageType} {k : ErrorKind} (hc : settleOf c = settleStop k)
    (hk : k ≠ .truncatedBuffer) (d : Byte) {s : State} (hpos : s.pos.toNat = 16) :
    settleOf c (storeOf c d s).advance = { (storeOf c d s).advance with st := errorCode k, phase := .drain } := by
  rw [hc, settleStop_at k (advance_storeOf_pos_toNat c d hpos), State.raise_nonfatal hk]

/-- A class with a body decoder is not settled before its body (R164). -/
theorem settleOf_body_at_header_end {c : MessageType} (hc : c = .soc ∨ isPrq c) {s : State}
    (hpos : s.pos.toNat = 17) : settleOf c s = s := by
  rcases hc with rfl | hc
  · exact settleSoc_elsewhere (by omega)
  · rw [settleOf_prq hc]
    exact settlePrq_of_lt (by omega)

section
variable {i : Instr} {s : State} {d : Byte} {l : Bool} (he : s.event = .beat d l) (hp : s.phase = .parse)
  (hpos : s.pos.toNat = 16)
include he hp hpos

theorem exec_stop_at_header_end {k : ErrorKind} (hi : settleOf i.cls = settleStop k) (hk : k ≠ .truncatedBuffer) :
    exec i s = .next { s with x.srcNode := d, pos := 17, st := errorCode k, phase := .drain, resValid := l,
                              inputs := s.inputs.tail } := by
  rw [exec_eq, classEdge_decides i.cls _ he hp (settleOf_stop_at_header_end hi hk d hpos),
    storeOf_at_header_end i.cls d hpos, pos_succ_at_header_end hpos]

theorem exec_body_at_header_end (hi : i.cls = .soc ∨ isPrq i.cls) :
    exec i s = .next { s with x.srcNode := d, pos := 17, st := if l then errorCode .truncatedBuffer else s.st,
                              resValid := l, inputs := s.inputs.tail } := by
  have hsettle := settleOf_body_at_header_end hi (advance_storeOf_pos_toNat i.cls d hpos)
  rw [exec_eq, classEdge_stays i.cls he hp hsettle, storeOf_at_header_end i.cls d hpos, pos_succ_at_header_end hpos]
  rfl

end

/-- Settles O29: the thirteen instructions of a class no body decoder takes raise its outcome
(`exec_stop_at_header_end`), the other three go on (`exec_body_at_header_end`). -/
theorem headerCompletionPerInstruction : Obligations.HeaderCompletionPerInstruction := by
  intro s d l he hp hpos
  have hnoBody (i : Instr) (hi : isNoBody i.cls) :=
    exec_stop_at_header_end he hp hpos (settleOf_noBody hi) (by decide)
  have hunknown (i : Instr) (hi : settleOf i.cls = settleStop .unknownMessageType) :=
    exec_stop_at_header_end he hp hpos hi (by decide)
  have hgoing (i : Instr) (hi : i.cls = .soc ∨ isPrq i.cls) := exec_body_at_header_end he hp hpos hi
  exact ⟨_, _, _, rfl, rfl, rfl,
    hnoBody .nonpowerlink (by decide), hnoBody .soa (by decide), hnoBody .asnd (by decide), hnoBody .amni (by decide),
    hnoBody .ainv (by decide),
    hunknown .unknown1 rfl, fun low => hunknown (.unknown2 low) rfl, hunknown .unknown3 rfl,
    fun low => hunknown (.unknown4 low) rfl, fun low => hunknown (.unknown5 low) rfl,
    fun low => hunknown (.unknown6 low) rfl, fun low => hunknown (.unknown7 low) rfl,
    fun low => hunknown (.unknown8 low) rfl,
    hgoing .soc (by decide), hgoing .preq (by decide), hgoing .pres (by decide)⟩

/-! ### The header, byte by byte -/

/-- The registers after the first `n` bytes of `B` have been stored by format H. -/
def Fields.storedHeader (B : List Byte) (n : Nat) (x : Fields) : Fields :=
  (List.range n).foldl (fun y k => headerStore k (byteAt B k) y) x

theorem Fields.storedHeader_succ (B : List Byte) (n : Nat) (x : Fields) :
    x.storedHeader B (n + 1) = headerStore n (byteAt B n) (x.storedHeader B n) := by
  rw [Fields.storedHeader, List.range_succ, List.foldl_append]; rfl

/-- A MAC register whose six bytes have been written in turn. -/
theorem foldl_setIfInBounds_eq_macAt (m : Vector Byte 6) (B : List Byte) (o : Nat) :
    (List.range 6).foldl (fun y k => y.setIfInBounds k (byteAt B (o + k))) m = macAt B o := by
  refine eq_macAt fun k hk => ?_
  interval_cases k <;> simp [List.range_succ, byteAt]

/-- The seventeen stores of format H leave the header of the frame (R61). -/
theorem Fields.storedHeader_full {B : List Byte} (hlen : 17 ≤ B.length) (x : Fields) :
    x.storedHeader B 17 = x.withHeaderOf B := by
  have hdst := foldl_setIfInBounds_eq_macAt x.dstMac B 0
  have hsrc := foldl_setIfInBounds_eq_macAt x.srcMac B 6
  have heth := setLane_big16 x.etherType (B := B) (o := 12) (by omega)
  rw [Fields.withHeaderOf, ← hdst, ← hsrc, ← heth]
  simp [Fields.storedHeader, List.range_succ, headerStore]

theorem State.acceptAll_append (A B : List Byte) (s : State) : s.acceptAll (A ++ B) = (s.acceptAll A).acceptAll B :=
  List.foldl_append

/-- DRAIN discards every byte (R168). -/
theorem State.acceptAll_drain (B : List Byte) {s : State} (hp : s.phase = .drain) : s.acceptAll B = s := by
  induction B with
  | nil => rfl
  | cons d B ih => rw [State.acceptAll_cons, s.accept_drain d hp, ih]

/-- A header byte before the last is stored and counted, whatever the class. -/
theorem State.accept_before_header_end {s : State} (d : Byte) (hp : s.phase = .parse) (hpos : s.pos.toNat < 16) :
    s.accept d = { s with x := headerStore s.pos.toNat d s.x, pos := s.pos + 1 } := by
  have hadv : (storeHeader d s).advance.pos.toNat < 17 := by
    rw [State.advance_pos, storeHeader_pos, pos_succ_toNat (by omega)]; omega
  rw [s.accept_parse d hp, storeOf_header _ d (by omega), settleOf_header _ hadv]
  rfl

theorem getElem_eq_byteAt {B : List Byte} {n : Nat} (h : n < B.length) : B[n] = byteAt B n := by simp [byteAt, h]

/-- The first `n` bytes of a frame, the last header byte not among them. -/
theorem State.acceptAll_take_header {s : State} {B : List Byte} {n : Nat} (hs : s.atFrameStart) (hn : n ≤ 16)
    (hlen : n ≤ B.length) :
    s.acceptAll (B.take n) = { s with x := s.x.storedHeader B n, pos := BitVec.ofNat 9 n } := by
  obtain ⟨-, hpos, hp⟩ := hs
  induction n with
  | zero => cases s; cases hpos; rfl
  | succ n ih =>
    have hoff : (BitVec.ofNat 9 n).toNat = n := by simp; omega
    rw [List.take_succ_eq_append_getElem (by omega), State.acceptAll_append, ih (by omega) (by omega),
      State.acceptAll_cons, State.acceptAll_nil, getElem_eq_byteAt,
      State.accept_before_header_end _ (by exact hp) (by simp; omega), hoff, Fields.storedHeader_succ, BitVec.ofNat_add]
    rfl

/-- The last header byte of a class no body decoder takes is stored, counted, and raises the outcome. -/
theorem State.accept_stop {s : State} {k : ErrorKind} (d : Byte) (hp : s.phase = .parse) (hpos : s.pos.toNat = 16)
    (hc : settleOf (classify s.x.msgType) = settleStop k) (hk : k ≠ .truncatedBuffer) :
    s.accept d = { s with x.srcNode := d, pos := 17, st := errorCode k, phase := .drain } := by
  have htag : s.tagWith d = s.x.msgType := if_neg (by omega)
  rw [s.accept_parse d hp, htag, settleOf_stop_at_header_end hc hk d hpos, storeOf_at_header_end _ d hpos,
    ← pos_succ_at_header_end hpos]
  rfl

/-! ### The frames no body decoder takes -/

section
variable {s : State} {B : List Byte} (hs : s.atFrameStart)
include hs

/-- A frame of such a class, whole: the header is stored, the outcome raised, the rest discarded. -/
theorem State.acceptAll_stop {k : ErrorKind} (hlen : 17 ≤ B.length)
    (hc : settleOf (classify (byteAt B 14)) = settleStop k) (hk : k ≠ .truncatedBuffer) :
    s.acceptAll B = { s with x := s.x.withHeaderOf B, pos := 17, st := errorCode k, phase := .drain } := by
  have hsplit : B = B.take 16 ++ byteAt B 16 :: B.drop 17 := by
    rw [← getElem_eq_byteAt (by omega), ← List.drop_eq_getElem_cons, List.take_append_drop]
  have hx : { s.x.storedHeader B 16 with srcNode := byteAt B 16 } = s.x.withHeaderOf B :=
    (Fields.storedHeader_succ B 16 s.x).symm.trans (Fields.storedHeader_full hlen s.x)
  have htag : (s.x.storedHeader B 16).msgType = byteAt B 14 := congrArg Fields.msgType hx
  have hp : s.phase = .parse := hs.2.2
  have hfirst := State.acceptAll_take_header hs le_rfl (show 16 ≤ B.length by omega)
  have hlast := State.accept_stop (s := { s with x := s.x.storedHeader B 16, pos := 16 }) (byteAt B 16) hp rfl
    (htag ▸ hc) hk
  calc s.acceptAll B
      = ((s.acceptAll (B.take 16)).accept (byteAt B 16)).acceptAll (B.drop 17) := by
        rw [← State.acceptAll_cons, ← State.acceptAll_append, ← hsplit]
    _ = (State.accept (byteAt B 16) { s with x := s.x.storedHeader B 16, pos := 16 }).acceptAll (B.drop 17) := by
        rw [hfirst]; rfl
    _ = { s with x := s.x.withHeaderOf B, pos := 17, st := errorCode k, phase := .drain } := by
        rw [hlast, State.acceptAll_drain _ rfl, ← hx]

variable {ins : List Wires} (rest : List Wires) (hd : Delivers ins B)
include hd

/-- The edges that deliver a frame of such a class with a whole header. -/
theorem run_stop {k : ErrorKind} (hlen : 17 ≤ B.length) (hc : settleOf (classify (byteAt B 14)) = settleStop k)
    (hk : k ≠ .truncatedBuffer) :
    Sys2Proof.core.run ins.length ({ s with inputs := ins ++ rest } : State) = .next
      ({ s with x := s.x.withHeaderOf B, pos := 17, phase := .drain, st := errorCode k, resValid := true,
                inputs := rest } : State) := by
  rw [run_eq_after, after_delivers rest hd hs.1, State.acceptAll_stop hs hlen hc hk]
  rfl

/-- The edges that deliver a frame without a whole header: it is truncated, whatever its class (R111). -/
theorem run_shorter_than_header (hlen : B.length < 17) : ∃ t : State,
    Sys2Proof.core.run ins.length ({ s with inputs := ins ++ rest } : State) = .next t ∧
      t.result = some .truncatedBuffer ∧ t.pos.toNat = B.length := by
  have hall := State.acceptAll_take_header hs (Nat.le_of_lt_succ hlen) le_rfl
  have hp : s.phase = .parse := hs.2.2
  rw [List.take_length] at hall
  refine ⟨{ (s.acceptAll B).boundary with inputs := rest }, ?_, ?_, ?_⟩
  · rw [run_eq_after, after_delivers rest hd hs.1]
  · exact State.result_truncated (s.acceptAll B).boundary_resValid (by simp [hall, hp, errorCode])
  · simp [hall]; omega

end

/-- Settles O40: truncated without a whole header (`run_shorter_than_header`), else stopped with NoBodyLayout
(`run_stop`). -/
theorem noBodyFrameRun : Obligations.NoBodyFrameRun := by
  intro s B ins rest hs _ hd hc
  refine ⟨run_shorter_than_header hs rest hd, fun hlen => ?_⟩
  have hknown : classify (byteAt B 14) ≠ .unknown := by rcases hc with h | h | h | h | h <;> simp [h]
  exact ⟨_, run_stop hs rest hd hlen (settleOf_noBody hc) (by decide), rfl, State.result_noBody rfl rfl,
    classCode_classify_nibble _ hknown⟩

/-- Settles O41: as O40 (`run_shorter_than_header`, `run_stop`), the outcome being UnknownMessageType. -/
theorem unknownFrameRun : Obligations.UnknownFrameRun := by
  intro s B ins rest hs _ hd hc
  refine ⟨run_shorter_than_header hs rest hd, fun hlen => ?_⟩
  exact ⟨_, run_stop hs rest hd hlen (k := .unknownMessageType) (by rw [hc]; rfl) (by decide), rfl,
    State.result_unknown rfl rfl, (classCode_eq_f_iff _).2 hc⟩

end Sys2Proof.Machine
end

section
/-! PROOFS for 41_envelope_header.md: frames too short for a header (R111), and the six header fields of every other frame
(R112 to R117). -/

namespace Sys2Proof.Machine

/-! ### Below 17 bytes -/

/-- The frame boundary while the header is incomplete posts TruncatedBuffer (R111, R169). -/
theorem step_last_byte_before_header_end {s : State} {d : Byte} (he : s.event = .beat d true) (hp : s.phase = .parse)
    (hpos : s.pos.toNat + 1 < 17) :
    ∃ t, step s = .next t ∧ t.result = some .truncatedBuffer ∧ t.pos.toNat = s.pos.toNat + 1 := by
  have haccept := s.accept_before_header_end d hp (by omega)
  refine ⟨_, step_beat he, State.result_truncated (by simp) ?code, ?count⟩
  case code => simp [haccept, hp, errorCode]
  case count =>
    rw [State.nextEdge_pos, if_pos rfl, State.boundary_pos, s.accept_pos_parse d hp, pos_succ_toNat (by omega)]

/-- Settles O11: the length test of both decoders, and the frame boundary in an incomplete header
(`step_last_byte_before_header_end`). -/
theorem shortFrameIsTruncated : Obligations.ShortFrameIsTruncated :=
  ⟨fun _ _ h => ⟨decodeFrame_short h, if_pos h⟩, fun _ _ he hp hpos => step_last_byte_before_header_end he hp hpos⟩

/-! ### The header registers -/

/-- A whole header is in the registers: the decode is on track, 17 bytes are counted, and the registers show the header of
the frame `B`. -/
structure State.HeaderRead (B : List Byte) (s : State) : Prop where
  onTrack : s.OnTrack
  pos_ge : 17 ≤ s.pos.toNat
  headerView : s.headerView = decodeHeader B

/-- A byte after the header leaves the header registers alone, stored (R162, rows 17 to 279) or discarded (R168). -/
theorem State.HeaderRead.accept {B : List Byte} {s : State} (d : Byte) (h : s.HeaderRead B) :
    (s.accept d).HeaderRead B := by
  rcases s.phase.parse_or_drain with hp | hp
  case inr => rwa [s.accept_drain d hp]
  have hlt := needsMore_lt (h.onTrack.parsing hp)
  have hview : (s.accept d).headerView = s.headerView := by
    obtain ⟨hdst, hsrc, heth, htag, hdn, hsn⟩ := storeOf_headerRegs (classify (s.tagWith d)) d h.pos_ge
    simp [s.accept_parse d hp, State.headerView, hdst, hsrc, heth, htag, hdn, hsn]
  exact {
    onTrack := h.onTrack.accept d
    pos_ge := by rw [s.accept_pos_parse d hp, pos_succ_toNat (by omega)]; exact h.pos_ge.trans (Nat.le_succ _)
    headerView := hview.trans h.headerView }

theorem State.HeaderRead.acceptAll {A : List Byte} {s : State} (B : List Byte) (h : s.HeaderRead A) :
    (s.acceptAll B).HeaderRead A :=
  List.foldlRecOn B _ h fun _ hu d _ => hu.accept d

theorem State.OnTrack.acceptAll {s : State} (B : List Byte) (h : s.OnTrack) : (s.acceptAll B).OnTrack :=
  List.foldlRecOn B _ h fun _ hu d _ => hu.accept d

/-- The byte at offset 16 completes the header, whatever the class and the outcome it raises (R164). -/
theorem State.accept_header_end {s : State} (d : Byte) (hp : s.phase = .parse) (hpos : s.pos.toNat = 16) :
    (s.accept d).x = { s.x with srcNode := d } ∧ (s.accept d).pos.toNat = 17 := by
  refine ⟨?_, by rw [s.accept_pos_parse d hp, pos_succ_at_header_end hpos]; rfl⟩
  rw [s.accept_parse d hp, settleOf_x, State.advance_x, storeOf_at_header_end _ d hpos]

/-- Seventeen bytes from the start of a frame on, its header is in the registers. -/
theorem State.headerRead_take {s : State} {B : List Byte} (hs : s.atFrameStart) (hlen : 17 ≤ B.length) :
    (s.acceptAll (B.take 17)).HeaderRead B := by
  have hlast : s.acceptAll (B.take 17) = (s.acceptAll (B.take 16)).accept (byteAt B 16) := by
    rw [List.take_succ_eq_append_getElem (by omega), State.acceptAll_append, getElem_eq_byteAt]; rfl
  have hfirst := State.acceptAll_take_header hs le_rfl (show 16 ≤ B.length by omega)
  obtain ⟨hx, hpos⟩ := State.accept_header_end (s := s.acceptAll (B.take 16)) (byteAt B 16)
    (by rw [hfirst]; exact hs.2.2) (by rw [hfirst]; rfl)
  have hheader : (s.acceptAll (B.take 17)).x = s.x.withHeaderOf B := by
    rw [hlast, hx, hfirst, ← Fields.storedHeader_full hlen, Fields.storedHeader_succ]; rfl
  have hstart : s.OnTrack := .of_parse hs.2.2 (.inl (by simp [hs.2.1]))
  exact {
    onTrack := hstart.acceptAll _
    pos_ge := by rw [hlast, hpos]
    headerView := by rw [State.headerView, hheader]; rfl }

/-- The edges that deliver a frame with a whole header leave its header in the registers, however it goes on. -/
theorem run_header {s : State} {B : List Byte} {ins : List Wires} (rest : List Wires) (hs : s.atFrameStart)
    (hlen : 17 ≤ B.length) (hd : Delivers ins B) : ∃ t : State,
    Sys2Proof.core.run ins.length ({ s with inputs := ins ++ rest } : State) = .next t ∧
      t.headerView = decodeHeader B := by
  have hread := (State.headerRead_take hs hlen).acceptAll (B.drop 17)
  rw [← State.acceptAll_append, List.take_append_drop] at hread
  refine ⟨{ (s.acceptAll B).boundary with inputs := rest }, ?_, ?_⟩
  · rw [run_eq_after, after_delivers rest hd hs.1]
  · simpa [State.headerView] using hread.headerView

theorem getElem_macAt (B : List Byte) (o : Nat) (k : Fin 6) : (macAt B o)[k] = byteAt B (o + k.val) := by
  fin_cases k <;> rfl

/-- Settles O39: the registers show the header of `Decode` (`run_header`), read field by field. -/
theorem headerFieldsReachTheirRegisters : Obligations.HeaderFieldsReachTheirRegisters := by
  intro s B ins rest hs hlen hd
  obtain ⟨t, hrun, hview⟩ := run_header rest hs hlen hd
  simp only [State.headerView, decodeHeader, Header.mk.injEq] at hview
  obtain ⟨hdst, hsrc, heth, htag, -, hdn, hsn⟩ := hview
  refine ⟨t, hrun, fun k => ?dst, fun k => ?src, ?eth, htag, hdn, hsn, ?cls⟩
  case dst => rw [hdst, getElem_macAt, Nat.zero_add]
  case src => rw [hsrc, getElem_macAt]
  case eth => rw [heth, toNat_readBE16 (by omega)]
  case cls => rw [State.clsPort, htag]

end Sys2Proof.Machine
end

section
/-! PROOFS for 42_soc.md: what a Soc frame leaves in the registers, and what it never writes (R130). -/

namespace Sys2Proof.Machine

/-! ### What formats Q and P alone write -/

/-- The registers of the fixed part that only formats Q and P store (R63, R64), and the payload buffer. -/
def State.prqStores (s : State) : Byte × Byte × BitVec 16 × Memory :=
  (s.x.pdoVersion, s.x.reserved2, s.x.size, s.payload)

theorem State.prqStores_eq_iff {s t : State} : t.prqStores = s.prqStores ↔
    t.x.pdoVersion = s.x.pdoVersion ∧ t.x.reserved2 = s.x.reserved2 ∧ t.x.size = s.x.size ∧
      t.payload = s.payload := by
  simp [State.prqStores]

/-- A header byte, and any byte of a class other than Preq and Pres, leaves them alone. -/
theorem storeOf_prqStores {c : MessageType} {s : State} (d : Byte) (h : 17 ≤ s.pos.toNat → ¬isPrq c) :
    (storeOf c d s).prqStores = s.prqStores := by
  rw [State.prqStores_eq_iff]
  by_cases hlo : s.pos.toNat < 17
  · rw [storeOf_header c d hlo]
    simp [headerStore_body]
  · exact storeOf_prqFixed (h (not_lt.1 hlo)) d s

theorem State.accept_prqStores {s : State} (d : Byte) (h : 17 ≤ s.pos.toNat → ¬isPrq (classify s.x.msgType)) :
    (s.accept d).prqStores = s.prqStores := by
  rcases s.phase.parse_or_drain with hp | hp
  · have hstore := storeOf_prqStores (c := classify (s.tagWith d)) d fun hge => by
      rw [State.tagWith_of_ge d hge]; exact h hge
    simpa [s.accept_parse d hp, State.prqStores] using hstore
  · rw [s.accept_drain d hp]

section
variable {s : State} (hs : s.atFrameStart) (hn : s.netTimeInWidth)
include hs hn

theorem State.hasRead_acceptAll (B : List Byte) : (s.acceptAll B).HasRead s.cfg B :=
  (State.hasRead_nil hs hn).acceptAll B

/-- A frame that is neither Preq nor Pres, byte by byte: once the header is in, the class is that of the frame's tag. -/
theorem State.acceptAll_prqStores {B : List Byte} (hc : 17 ≤ B.length → ¬isPrq (classify (byteAt B 14))) :
    (s.acceptAll B).prqStores = s.prqStores := by
  induction B using List.reverseRecOn with
  | nil => rfl
  | append_singleton B d ih =>
    have hread := State.hasRead_acceptAll hs hn B
    have hbefore (h17 : 17 ≤ B.length) : ¬isPrq (classify (byteAt B 14)) := by
      rw [← byteAt_append_left (B := [d]) (by omega)]
      exact hc (by simp; omega)
    have hlast : ((s.acceptAll B).accept d).prqStores = (s.acceptAll B).prqStores :=
      State.accept_prqStores d fun h17 => by
        rw [hread.msgType h17]; exact hbefore (h17.trans hread.pos_le)
    rw [State.acceptAll_append]
    exact hlast.trans (ih hbefore)

end

/-! ### A Soc frame -/

/-- The registers as a Soc frame leaves them (R130). -/
def Fields.withSocFrameOf (c : Config) (B : List Byte) (x : Fields) : Fields :=
  { x.withHeaderOf B with
    body0 := byteAt B 17
    flag1 := byteAt B 18
    flag2 := byteAt B 19
    netTime := BitVec.ofNat 64 (leValue (memRead B 20 c.netTimeBytes))
    relTime := readLE64 B (20 + c.netTimeBytes) }

/-- The registers are the header's, the Soc body's, and the three that formats Q and P alone write. -/
theorem State.x_eq_withSocFrameOf {c : Config} {B : List Byte} {s t : State} (hhead : t.headerView = decodeHeader B)
    (hbody : t.socView = socBodyOf c B) (hkept : t.prqStores = s.prqStores) : t.x = s.x.withSocFrameOf c B := by
  simp only [State.headerView, decodeHeader, Header.mk.injEq] at hhead
  simp only [State.socView, socBodyOf, SocBody.mk.injEq] at hbody
  obtain ⟨hdst, hsrc, heth, htag, -, hdn, hsn⟩ := hhead
  obtain ⟨hb, hf1, hf2, hnet, hrel⟩ := hbody
  obtain ⟨hv, hr, hsize, -⟩ := State.prqStores_eq_iff.1 hkept
  rw [Fields.withSocFrameOf, Fields.withHeaderOf, ← hdst, ← hsrc, ← heth, ← htag, ← hdn, ← hsn, ← hb, ← hf1, ← hf2,
    ← hnet, ← hrel, ← hv, ← hr, ← hsize]

section
variable {s : State} {c : Config} {B : List Byte} (h : s.HasRead c B) (hc : classify (byteAt B 14) = .soc)
  (hlen : 28 + c.netTimeBytes ≤ B.length)
include h hc hlen

/-- A Soc frame whose `28 + W` bytes are in is no longer parsed. -/
theorem State.HasRead.soc_drain : s.phase = .drain := by
  refine s.phase.parse_or_drain.resolve_left fun hp => ?_
  have hpos := h.pos_parse hp
  have hcls : classify s.x.msgType = .soc := by rw [h.msgType (by omega), hc]
  rcases h.onTrack.parsing hp with hlt | ⟨-, hlt⟩ | ⟨hprq, -⟩
  · omega
  · rw [h.cfg] at hlt; omega
  · simp [hcls, isPrq] at hprq

/-- Of the decided outcomes it has the one of its class: status 0 at offset `28 + W` (R165). -/
theorem State.HasRead.soc_decided : s.st = 0 ∧ classify s.x.msgType = .soc ∧ s.pos.toNat = 28 + c.netTimeBytes := by
  have hdec := h.onTrack.draining (h.soc_drain hc hlen)
  have hcls : classify s.x.msgType = .soc := by rw [h.msgType (decided_pos hdec).1, hc]
  simpa [State.decided, hcls, isPrq, isNoBody, h.cfg] using hdec

end

section
variable {s : State} {B : List Byte} (hs : s.atFrameStart) (hn : s.netTimeInWidth)
include hs hn

/-- The bytes of a complete Soc frame, accepted in turn. -/
theorem State.acceptAll_soc (hc : classify (byteAt B 14) = .soc) (hlen : 28 + s.cfg.netTimeBytes ≤ B.length) :
    s.acceptAll B = { s with x := s.x.withSocFrameOf s.cfg B, pos := BitVec.ofNat 9 (28 + s.cfg.netTimeBytes),
                             phase := .drain, st := okCode, inputs := (s.acceptAll B).inputs } := by
  have hread := State.hasRead_acceptAll hs hn B
  have hdrain := hread.soc_drain hc hlen
  obtain ⟨hst, hcls, hpos⟩ := hread.soc_decided hc hlen
  have hkept := State.acceptAll_prqStores hs hn (B := B) fun _ => by simp [hc, isPrq]
  have hx := State.x_eq_withSocFrameOf (hread.headerView (by omega)) (hread.socView hcls hpos.ge) hkept
  obtain ⟨-, -, -, hpayload⟩ := State.prqStores_eq_iff.1 hkept
  have hv := hread.resValid.trans hs.1.symm
  rw [← hx, ← pos_eq_ofNat hpos, ← hdrain, show okCode = 0 from rfl, ← hst, ← hpayload, ← hread.cfg, ← hv]

variable {ins : List Wires} (rest : List Wires) (hd : Delivers ins B)
include hd

/-- The edges that deliver a complete Soc frame. -/
theorem run_soc (hc : classify (byteAt B 14) = .soc) (hlen : 28 + s.cfg.netTimeBytes ≤ B.length) :
    Sys2Proof.core.run ins.length ({ s with inputs := ins ++ rest } : State) = .next
      ({ s with x := s.x.withSocFrameOf s.cfg B, pos := BitVec.ofNat 9 (28 + s.cfg.netTimeBytes), phase := .drain,
                st := okCode, resValid := true, inputs := rest } : State) := by
  rw [run_eq_after, after_delivers rest hd hs.1, State.acceptAll_soc hs hn hc hlen]
  rfl

/-- The edges that deliver a Soc frame that ends too early, perhaps before its tag: `Decode` calls it truncated, and what
formats Q and P alone write is as it was. -/
theorem run_soc_truncated (hc : 17 ≤ B.length → classify (byteAt B 14) = .soc)
    (hlen : B.length < 28 + s.cfg.netTimeBytes) : ∃ t : State,
    Sys2Proof.core.run ins.length ({ s with inputs := ins ++ rest } : State) = .next t ∧
      t.result = some .truncatedBuffer ∧ t.pos.toNat = B.length ∧ t.prqStores = s.prqStores := by
  have hdecode : decodeFrame s.cfg B = .truncatedBuffer := decodeFrame_truncated <|
    (lt_or_ge B.length 17).imp_right fun h17 => .inl ⟨hc h17, hlen⟩
  have hkept := State.acceptAll_prqStores hs hn (B := B) fun h17 => by simp [hc h17, isPrq]
  obtain ⟨hres, -, hpos⟩ := (State.hasRead_acceptAll hs hn B).posts
  rw [hdecode] at hres hpos
  refine ⟨{ (s.acceptAll B).boundary with inputs := rest }, ?_, hres, hpos, ?_⟩
  · rw [run_eq_after, after_delivers rest hd hs.1]
  · simpa [State.prqStores] using hkept

end

/-- Settles O42: truncated below `28 + W` bytes (`run_soc_truncated`), else complete (`run_soc`). -/
theorem socFrameRun : Obligations.SocFrameRun := by
  intro s B ins rest hs hn _ hd htag
  have hc (h15 : 15 ≤ B.length) : classify (byteAt B 14) = .soc := by rw [htag h15]; rfl
  refine ⟨fun hlen => ?truncated, fun hlen => run_soc hs hn rest hd (hc (by omega)) hlen⟩
  case truncated =>
    obtain ⟨t, hrun, hres, hpos, hkept⟩ := run_soc_truncated hs hn rest hd (fun h17 => hc (by omega)) hlen
    exact ⟨t, hrun, hres, hpos, State.prqStores_eq_iff.1 hkept⟩

end Sys2Proof.Machine
end

section
/-! PROOFS for 43_preq_pres.md: the Preq and Pres frames, alike byte for byte (R140, R141), in each of their outcomes
(R147). -/

namespace Sys2Proof.Machine

/-! ### The registers byte by byte -/

theorem prqStore_msgType (p : Nat) (d : Byte) (x : Fields) :
    (prqStore p d x).msgType = if p = 14 then d else x.msgType := by
  by_cases h : p < 17
  · rw [prqStore_header h, headerStore_msgType]
  · obtain ⟨-, -, -, htag, -⟩ := prqStore_headerRegs (not_lt.1 h) d x
    rw [htag, if_neg (by omega)]

/-- The registers after the first `n` bytes of `B` have been stored by format Q or P. -/
def Fields.storedPrq (B : List Byte) (n : Nat) (x : Fields) : Fields :=
  (List.range n).foldl (fun y k => prqStore k (byteAt B k) y) x

theorem Fields.storedPrq_succ (B : List Byte) (n : Nat) (x : Fields) :
    x.storedPrq B (n + 1) = prqStore n (byteAt B n) (x.storedPrq B n) := by
  rw [Fields.storedPrq, List.range_succ, List.foldl_append]; rfl

/-- The first 17 bytes are stored as format H stores them (R162, rows 0 to 16). -/
theorem Fields.storedPrq_header (B : List Byte) {n : Nat} (hn : n ≤ 17) (x : Fields) :
    x.storedPrq B n = x.storedHeader B n := by
  induction n with
  | zero => rfl
  | succ n ih => rw [Fields.storedPrq_succ, Fields.storedHeader_succ, ih (by omega), prqStore_header (by omega)]

/-- Once the tag is in, `msg_type` holds it. -/
theorem Fields.storedPrq_msgType (B : List Byte) {n : Nat} (hn : 15 ≤ n) (x : Fields) :
    (x.storedPrq B n).msgType = byteAt B 14 := by
  induction n, hn using Nat.le_induction with
  | base => rw [Fields.storedPrq_succ, prqStore_msgType, if_pos rfl]
  | succ n hn ih => rw [Fields.storedPrq_succ, prqStore_msgType, if_neg (by omega), ih]

/-- No byte of formats Q and P is one of `net_time` or `rel_time`. -/
theorem Fields.storedPrq_soc (B : List Byte) (n : Nat) (x : Fields) :
    (x.storedPrq B n).netTime = x.netTime ∧ (x.storedPrq B n).relTime = x.relTime := by
  induction n with
  | zero => exact ⟨rfl, rfl⟩
  | succ n ih =>
    obtain ⟨hnet, hrel⟩ := prqStore_soc n (byteAt B n) (x.storedPrq B n)
    rw [Fields.storedPrq_succ, hnet, hrel]
    exact ih

/-- The registers as the 24 bytes before the payload leave them (R63, R64). -/
def Fields.withPrqFrameOf (B : List Byte) (x : Fields) : Fields :=
  { x.withHeaderOf B with
    body0 := byteAt B 17
    flag1 := byteAt B 18
    flag2 := byteAt B 19
    pdoVersion := byteAt B 20
    reserved2 := byteAt B 21
    size := readLE16 B 22 }

/-- From offset 24 on the registers stand: the payload bytes go elsewhere. -/
theorem Fields.storedPrq_full {B : List Byte} {n : Nat} (hn : 24 ≤ n) (hlen : 24 ≤ B.length) (x : Fields) :
    x.storedPrq B n = x.withPrqFrameOf B := by
  induction n, hn using Nat.le_induction with
  | base =>
    have hsize : setLane (setLane x.size 0 (byteAt B 22)) 1 (byteAt B 23) = readLE16 B 22 :=
      foldl_setLane_little (m := 2) x.size le_rfl (by omega) x.size.isLt
    have hhead := (Fields.storedPrq_header B le_rfl x).trans (Fields.storedHeader_full (by omega) x)
    simp only [Fields.storedPrq_succ B 23, Fields.storedPrq_succ B 22, Fields.storedPrq_succ B 21,
      Fields.storedPrq_succ B 20, Fields.storedPrq_succ B 19, Fields.storedPrq_succ B 18, Fields.storedPrq_succ B 17,
      hhead]
    rw [Fields.withPrqFrameOf, ← hsize]
    rfl
  | succ n hn ih => rw [Fields.storedPrq_succ, prqStore_of_ge hn, ih]

/-! ### The payload cells byte by byte -/

/-- The payload buffer after the first `n` bytes of the frame `B` have been stored by format Q or P. -/
def Memory.storedPayload (B : List Byte) (n : Nat) (m : Memory) : Memory :=
  (List.range n).foldl (fun m k => payloadStore k (byteAt B k) m) m

theorem Memory.storedPayload_succ (B : List Byte) (n : Nat) (m : Memory) :
    m.storedPayload B (n + 1) = payloadStore n (byteAt B n) (m.storedPayload B n) := by
  rw [Memory.storedPayload, List.range_succ, List.foldl_append]; rfl

/-- The 24 bytes before the payload write no cell. -/
theorem Memory.storedPayload_of_le (B : List Byte) {n : Nat} (hn : n ≤ 24) (m : Memory) : m.storedPayload B n = m := by
  induction n with
  | zero => rfl
  | succ n ih => rw [Memory.storedPayload_succ, payloadStore_of_lt (by omega), ih (by omega)]

/-- Cell `i` holds the byte of offset `24 + i` once that is in (R49), and what it held before until then. -/
theorem Memory.read_storedPayload (B : List Byte) {n : Nat} (hn : n ≤ 280) (m : Memory) (i : Nat) :
    (m.storedPayload B n).read i = if 24 + i < n then some (byteAt B (24 + i)) else m.read i := by
  induction n with
  | zero => rfl
  | succ n ih =>
    by_cases h24 : n < 24
    · rw [Memory.storedPayload_of_le B (by omega), if_neg (by omega)]
    rw [Memory.storedPayload_succ, payloadStore_of_mem (by omega) (by omega), Memory.read_write, ih (by omega)]
    rcases lt_trichotomy (24 + i) n with hlt | rfl | hgt
    · rw [if_neg (by omega), if_pos hlt, if_pos (by omega)]
    · rw [if_pos (by omega), if_pos (by omega)]
    · rw [if_neg (by omega), if_neg (by omega), if_neg (by omega)]

/-! ### The parser byte by byte -/

/-- A byte of a Preq or Pres frame: before the header is complete every class stores and settles alike. -/
theorem State.accept_prq {s : State} (d : Byte) (hp : s.phase = .parse)
    (hc : 16 ≤ s.pos.toNat → isPrq (classify s.x.msgType)) : s.accept d = settlePrq (storePrq d s).advance := by
  by_cases hlo : s.pos.toNat < 16
  · have hadv : (storePrq d s).advance.pos.toNat < 24 := by
      rw [State.advance_pos, storePrq_pos, pos_succ_toNat (by omega)]; omega
    rw [s.accept_before_header_end d hp hlo, settlePrq_of_lt hadv, storePrq_of_lt d (by omega),
      prqStore_header (by omega)]
    rfl
  · have htag : s.tagWith d = s.x.msgType := if_neg (by omega)
    have hprq := hc (not_lt.1 hlo)
    rw [s.accept_parse d hp, htag, settleOf_prq hprq, storeOf_prq hprq]

/-- The parser after the stores of the first `n` bytes of a Preq or Pres frame, nothing settled. -/
def State.readPrq (B : List Byte) (n : Nat) (s : State) : State :=
  { s with x := s.x.storedPrq B n, payload := s.payload.storedPayload B n, pos := BitVec.ofNat 9 n }

theorem State.readPrq_pos (B : List Byte) {n : Nat} (hn : n ≤ 280) (s : State) : (s.readPrq B n).pos.toNat = n :=
  (BitVec.toNat_ofNat n 9).trans (Nat.mod_eq_of_lt (by omega))

theorem State.readPrq_succ (B : List Byte) {n : Nat} (hn : n ≤ 280) (s : State) :
    s.readPrq B (n + 1) = (storePrq (byteAt B n) (s.readPrq B n)).advance := by
  rw [storePrq, s.readPrq_pos B hn, State.readPrq, Fields.storedPrq_succ, Memory.storedPayload_succ, BitVec.ofNat_add]
  rfl

/-- The size register of a Preq or Pres frame, once its bytes are in (R143). -/
theorem State.readPrq_size {B : List Byte} {n : Nat} (hn : 24 ≤ n) (hlen : n ≤ B.length) (s : State) :
    (s.readPrq B n).x.size = readLE16 B 22 :=
  congrArg Fields.size (Fields.storedPrq_full hn (hn.trans hlen) s.x)

/-- The offset at which a Preq or Pres frame is settled: a size out of range stops it before the payload (R166). -/
def prqEnd (B : List Byte) : Nat := if 256 < (readLE16 B 22).toNat then 24 else 24 + (readLE16 B 22).toNat

theorem prqEnd_tooLong {B : List Byte} (h : 256 < (readLE16 B 22).toNat) : prqEnd B = 24 := if_pos h

theorem prqEnd_inRange {B : List Byte} (h : (readLE16 B 22).toNat ≤ 256) : prqEnd B = 24 + (readLE16 B 22).toNat :=
  if_neg (not_lt.2 h)

theorem prqEnd_range (B : List Byte) : 24 ≤ prqEnd B ∧ prqEnd B ≤ 280 := by
  unfold prqEnd; split_ifs <;> omega

section
variable {B : List Byte} (s : State)

/-- Before its end the frame is not settled. -/
theorem settlePrq_readPrq_of_lt {n : Nat} (hlen : n ≤ B.length) (hn : n < prqEnd B) :
    settlePrq (s.readPrq B n) = s.readPrq B n := by
  have hpos := s.readPrq_pos B (n := n) (by have := prqEnd_range B; omega)
  by_cases h24 : n < 24
  · exact settlePrq_of_lt (by omega)
  have hsize := State.readPrq_size (not_lt.1 h24) hlen s
  have hrange : (readLE16 B 22).toNat ≤ 256 := not_lt.1 fun h => by rw [prqEnd_tooLong h] at hn; omega
  rw [prqEnd_inRange hrange] at hn
  exact settlePrq_elsewhere (fun _ => by rwa [hsize]) (by rw [hpos, hsize]; omega)

/-- With a size out of range it is settled as `size` is complete (R166). -/
theorem settlePrq_readPrq_tooLong (hlen : 24 ≤ B.length) (hs : 256 < (readLE16 B 22).toNat) :
    settlePrq (s.readPrq B (prqEnd B)) = (s.readPrq B 24).raise .sizeOutOfRange := by
  rw [prqEnd_tooLong hs]
  exact settlePrq_tooLong rfl (by rwa [State.readPrq_size le_rfl hlen])

/-- With a size in range it is settled as the declared payload is in (R166, R167). -/
theorem settlePrq_readPrq_complete (hs : (readLE16 B 22).toNat ≤ 256) (hlen : 24 + (readLE16 B 22).toNat ≤ B.length) :
    settlePrq (s.readPrq B (prqEnd B)) = (s.readPrq B (24 + (readLE16 B 22).toNat)).complete := by
  have hsize := State.readPrq_size (Nat.le_add_right 24 _) hlen s
  rw [prqEnd_inRange hs]
  exact settlePrq_at (fun _ => by rwa [hsize]) (by rw [s.readPrq_pos B (by omega), hsize])

theorem settlePrq_readPrq_end_phase (hlen : prqEnd B ≤ B.length) :
    (settlePrq (s.readPrq B (prqEnd B))).phase = .drain := by
  rcases lt_or_ge 256 (readLE16 B 22).toNat with hs | hs
  · rw [settlePrq_readPrq_tooLong s ((prqEnd_range B).1.trans hlen) hs]; rfl
  · rw [settlePrq_readPrq_complete s hs (prqEnd_inRange hs ▸ hlen)]; rfl

end

/-! ### A Preq or Pres frame -/

section
variable {s : State} {B : List Byte} (hs : s.atFrameStart) (hc : 17 ≤ B.length → isPrq (classify (byteAt B 14)))
include hs hc

/-- A byte before the frame's end is stored, counted, and settles the frame if it is the last it needs. -/
theorem State.accept_readPrq {n : Nat} (hlen : n < B.length) (hn : n < prqEnd B) :
    (s.readPrq B n).accept (byteAt B n) = settlePrq (s.readPrq B (n + 1)) := by
  have hle : n ≤ 280 := hn.le.trans (prqEnd_range B).2
  rw [s.readPrq_succ B hle]
  refine State.accept_prq _ hs.2.2 fun h16 => ?_
  rw [s.readPrq_pos B hle] at h16
  rw [show (s.readPrq B n).x.msgType = byteAt B 14 from Fields.storedPrq_msgType B (by omega) s.x]
  exact hc (by omega)

/-- The first `n` bytes of the frame are stored up to its end, and the rest discarded. -/
theorem State.acceptAll_take_prq {n : Nat} (hlen : n ≤ B.length) :
    s.acceptAll (B.take n) = settlePrq (s.readPrq B (min n (prqEnd B))) := by
  have hend := prqEnd_range B
  induction n with
  | zero =>
    rw [Nat.zero_min, settlePrq_readPrq_of_lt s (Nat.zero_le _) (by omega)]
    obtain ⟨-, hpos, -⟩ := hs
    cases s; cases hpos; rfl
  | succ n ih =>
    rw [List.take_succ_eq_append_getElem (by omega), State.acceptAll_append, ih (by omega), State.acceptAll_cons,
      State.acceptAll_nil, getElem_eq_byteAt]
    rcases lt_or_ge n (prqEnd B) with hn | hn
    · rw [min_eq_left hn.le, min_eq_left hn, settlePrq_readPrq_of_lt s (by omega) hn,
        State.accept_readPrq hs hc (by omega) hn]
    · rw [min_eq_right hn, min_eq_right (by omega), State.accept_drain]
      exact settlePrq_readPrq_end_phase s (by omega)

/-- A frame accepted byte by byte: what its first `prqEnd B` bytes store, settled. -/
theorem State.acceptAll_prq : s.acceptAll B = settlePrq (s.readPrq B (min B.length (prqEnd B))) := by
  rw [← State.acceptAll_take_prq hs hc le_rfl, List.take_length]

/-- Whatever the outcome, the registers of the Soc times are as they were. -/
theorem State.acceptAll_prq_soc :
    (s.acceptAll B).x.netTime = s.x.netTime ∧ (s.acceptAll B).x.relTime = s.x.relTime := by
  have hx : (s.acceptAll B).x = s.x.storedPrq B (min B.length (prqEnd B)) := by
    rw [State.acceptAll_prq hs hc]; exact settleOf_x .preq _
  rw [hx]
  exact Fields.storedPrq_soc B _ s.x

/-- The frame boundary of a frame that ends too early: TruncatedBuffer at its last byte (R145, R147). -/
theorem State.boundary_prq_truncated (hlen : B.length < prqEnd B) :
    (s.acceptAll B).boundary.result = some .truncatedBuffer ∧ (s.acceptAll B).boundary.pos.toNat = B.length ∧
      (s.acceptAll B).boundary.payload = s.payload.storedPayload B B.length := by
  rw [State.acceptAll_prq hs hc, min_eq_left hlen.le, settlePrq_readPrq_of_lt s le_rfl hlen]
  have hp : (s.readPrq B B.length).phase = .parse := hs.2.2
  refine ⟨State.result_truncated (State.boundary_resValid _) (by simp [hp, errorCode]), ?pos, by simp [State.readPrq]⟩
  case pos => rw [State.boundary_pos, s.readPrq_pos B (hlen.le.trans (prqEnd_range B).2)]

/-- The frame boundary of a frame whose size is out of range: the outcome of R146, no cell written. -/
theorem State.boundary_prq_tooLong (hlen : 24 ≤ B.length) (hsize : 256 < (readLE16 B 22).toNat) :
    (s.acceptAll B).boundary.result = some .sizeOutOfRange ∧ (s.acceptAll B).boundary.pos = 24 ∧
      (s.acceptAll B).boundary.x.size = readLE16 B 22 ∧ (s.acceptAll B).boundary.payload = s.payload := by
  rw [State.acceptAll_prq hs hc, min_eq_right (by rwa [prqEnd_tooLong hsize]), settlePrq_readPrq_tooLong s hlen hsize]
  refine ⟨State.result_sizeOutOfRange rfl rfl, rfl, ?size, ?cells⟩
  case size => rw [State.boundary_x, State.raise_x, State.readPrq_size le_rfl hlen]
  case cells => rw [State.boundary_payload, State.raise_payload, State.readPrq, Memory.storedPayload_of_le B le_rfl]

/-- The frame boundary of a complete frame: status OK, the registers and the cells holding the frame. -/
theorem State.boundary_prq_complete (hsize : (readLE16 B 22).toNat ≤ 256)
    (hlen : 24 + (readLE16 B 22).toNat ≤ B.length) : (s.acceptAll B).boundary =
      { s with x := s.x.withPrqFrameOf B, payload := s.payload.storedPayload B (24 + (readLE16 B 22).toNat),
               pos := BitVec.ofNat 9 (24 + (readLE16 B 22).toNat), phase := .drain, st := okCode,
               resValid := true } := by
  rw [State.acceptAll_prq hs hc, min_eq_right (by rwa [prqEnd_inRange hsize]),
    settlePrq_readPrq_complete s hsize hlen, ← Fields.storedPrq_full (Nat.le_add_right 24 _) (by omega) s.x]
  rfl

end

/-- Settles O43: truncated before the frame's end (`State.boundary_prq_truncated`), stopped at its size
(`State.boundary_prq_tooLong`), else complete (`State.boundary_prq_complete`); the cells are those of
`Memory.read_storedPayload`. -/
theorem preqAndPresFrameRun : Obligations.PreqAndPresFrameRun := by
  intro s B ins rest size hs _ hd htag hsize
  subst hsize
  have hc (h17 : 17 ≤ B.length) : isPrq (classify (byteAt B 14)) := by
    rcases htag (by omega) with h | h
    · rw [h]; exact .inl rfl
    · rw [h]; exact .inr rfl
  obtain ⟨hnet, hrel⟩ := State.acceptAll_prq_soc hs hc
  refine ⟨{ (s.acceptAll B).boundary with inputs := rest }, ?run, ?net, ?rel, State.boundary_resValid _, rfl,
    fun hlen => ?short, fun hlen hlong => State.boundary_prq_tooLong hs hc hlen hlong, fun h24 hle hlen => ?truncated,
    fun hle hlen => ?complete⟩
  case run => rw [run_eq_after, after_delivers rest hd hs.1]
  case net => exact (congrArg Fields.netTime (State.boundary_x _)).trans hnet
  case rel => exact (congrArg Fields.relTime (State.boundary_x _)).trans hrel
  case short =>
    obtain ⟨hres, hpos, hcells⟩ := State.boundary_prq_truncated hs hc (hlen.trans_le (prqEnd_range B).1)
    exact ⟨hres, hpos, hcells.trans (Memory.storedPayload_of_le B hlen.le s.payload)⟩
  case truncated =>
    obtain ⟨hres, hpos, hcells⟩ := State.boundary_prq_truncated hs hc (by rwa [prqEnd_inRange hle])
    have hread := Memory.read_storedPayload B (show B.length ≤ 280 by omega) s.payload
    refine ⟨hres, hpos, fun i hi => ?_, fun i hi => ?_⟩
    · exact hcells ▸ (hread i).trans (if_pos hi)
    · exact hcells ▸ (hread i).trans (if_neg (not_lt.2 hi))
  case complete =>
    have hread := Memory.read_storedPayload B (show 24 + (readLE16 B 22).toNat ≤ 280 by omega) s.payload
    rw [State.boundary_prq_complete hs hc hle hlen]
    refine ⟨rfl, fun i hi => ?_, fun i hi => ?_⟩
    · exact (hread i).trans (if_pos (by omega))
    · exact (hread i).trans (if_neg (by omega))

end Sys2Proof.Machine
end

section
/-! PROOFS for 45_stream_machine.md, part 1: the step is the spec's next-state function (R172). The table of R162 is the
store of the class, the decision lines are its settling rule, and the two agree edge by edge. -/

namespace Sys2Proof.Machine

/-! ### The table of R162 -/

/-- Rows 0 to 16 are format H, whatever the class. -/
theorem storeAtOffset_header {p : Nat} (hp : p < 17) (c : MessageType) (d : Byte) (s : State) :
    storeAtOffset p c d s = { s with x := headerStore p d s.x } := by
  interval_cases p <;> rfl

/-- The Soc rows from 17 on are format S. -/
theorem storeAtOffset_soc {p : Nat} (hp : 17 ≤ p) (d : Byte) (s : State) :
    storeAtOffset p .soc d s = { s with x := socStore s.cfg.netTimeBytes p d s.x } := by
  by_cases h20 : p < 20
  · interval_cases p <;> rfl
  by_cases hnet : p < 20 + s.cfg.netTimeBytes
  · simp (disch := omega) only [storeAtOffset, socStore, socTimesStore, ↓reduceIte, ↓if_neg, ↓if_pos, lane]
  by_cases hrel : p < 28 + s.cfg.netTimeBytes
  · simp (disch := omega) only [storeAtOffset, socStore, socTimesStore, ↓reduceIte, ↓if_neg, ↓if_pos, lane, Nat.sub_sub]
  · simp (disch := omega) only [storeAtOffset, socStore, socTimesStore, ↓reduceIte, ↓if_neg]

/-- The Preq and Pres rows from 17 on are formats Q and P with the payload cells. -/
theorem storeAtOffset_prq {p : Nat} {c : MessageType} (hc : isPrq c) (hp : 17 ≤ p) (d : Byte) (s : State) :
    storeAtOffset p c d s = { s with x := prqStore p d s.x, payload := payloadStore p d s.payload } := by
  have hsoc : c ≠ .soc := by rcases hc with rfl | rfl <;> decide
  by_cases h24 : p < 24
  · rw [payloadStore_of_lt h24]
    interval_cases p <;> simp only [storeAtOffset, if_neg hsoc, if_pos hc] <;> rfl
  rw [prqStore_of_ge (not_lt.1 h24)]
  by_cases h280 : p < 280
  · rw [payloadStore_of_mem (not_lt.1 h24) h280]
    simp (disch := omega) only [storeAtOffset, ↓if_neg hsoc, ↓if_pos hc, ↓if_neg, ↓if_pos]
  · rw [payloadStore_of_ge (not_lt.1 h280)]
    simp (disch := omega) only [storeAtOffset, ↓if_neg hsoc, ↓if_pos hc, ↓if_neg]

/-- Past the header the other classes have no row. -/
theorem storeAtOffset_other {p : Nat} {c : MessageType} (hsoc : c ≠ .soc) (hprq : ¬isPrq c) (hp : 17 ≤ p) (d : Byte)
    (s : State) : storeAtOffset p c d s = s := by
  simp (disch := omega) only [storeAtOffset, ↓if_neg hsoc, ↓if_neg hprq, ↓if_neg]

/-- The table of R162 is the store of the class. -/
theorem storeAtOffset_eq_storeOf (c : MessageType) (d : Byte) (s : State) :
    storeAtOffset s.pos.toNat c d s = storeOf c d s := by
  by_cases hlo : s.pos.toNat < 17
  · rw [storeAtOffset_header hlo, storeOf_header c d hlo, storeHeader]
  have hge := not_lt.1 hlo
  by_cases hsoc : c = .soc
  · rw [hsoc, storeAtOffset_soc hge]; rfl
  by_cases hprq : isPrq c
  · rw [storeOf_prq hprq, storeAtOffset_prq hprq hge, storePrq]
  · rw [storeOf_noBody hsoc hprq, storeHeader, headerStore_of_ge hge, storeAtOffset_other hsoc hprq hge]

/-! ### The decision lines of R172 -/

theorem decideAt_soc (s : State) : decideAt s.pos.toNat .soc s = settleSoc s := by
  by_cases h17 : s.pos.toNat = 17
  · rw [settleSoc_elsewhere (by omega)]
    simp [decideAt, h17]
  · simp [decideAt, h17, settleSoc, State.complete, okCode]

theorem decideAt_prq {c : MessageType} (hc : isPrq c) (s : State) : decideAt s.pos.toNat c s = settlePrq s := by
  have hsoc : c ≠ .soc := by rcases hc with rfl | rfl <;> decide
  have hunknown : c ≠ .unknown := by rcases hc with rfl | rfl <;> decide
  have hend : 24 ≤ s.pos.toNat ∧ s.pos.toNat = 24 + s.x.size.toNat ↔ s.pos.toNat = 24 + s.x.size.toNat := by omega
  by_cases h17 : s.pos.toNat = 17
  · rw [settlePrq_of_lt (by omega)]
    simp [decideAt, h17, hc, hunknown]
  · simp [decideAt, h17, hc, hsoc, hend, settlePrq, State.raise, State.complete, okCode, errorCode]

/-- The decision lines are the settling rule of the class. -/
theorem decideAt_eq_settleOf (c : MessageType) (s : State) : decideAt s.pos.toNat c s = settleOf c s := by
  cases c
  case soc => exact decideAt_soc s
  case preq => exact decideAt_prq (.inl rfl) s
  case pres => exact decideAt_prq (.inr rfl) s
  all_goals simp [decideAt, settleOf, settleStop, State.raise, errorCode]

/-! ### One edge -/

/-- The store does not depend on which tag is in effect: the two differ at offset 14 only, a row of every class. -/
theorem storeOf_tagWith {s : State} (d : Byte) :
    storeOf (classify (s.tagWith d)) d s = storeOf (classify s.x.msgType) d s := by
  by_cases hlo : s.pos.toNat < 17
  · rw [storeOf_header _ d hlo, storeOf_header _ d hlo]
  · rw [State.tagWith_of_ge d (not_lt.1 hlo)]

/-- The accepted byte, as the spec's pseudocode has it. -/
theorem decideAt_storeAtOffset {s t : State} (d : Byte) (hp : s.phase = .parse)
    (ht : t = { storeAtOffset s.pos.toNat (classify s.x.msgType) d s with pos := s.pos + 1 }) :
    decideAt t.pos.toNat (classify t.x.msgType) t = s.accept d := by
  have hstore : t = (storeOf (classify (s.tagWith d)) d s).advance := by
    rw [ht, storeAtOffset_eq_storeOf, storeOf_tagWith, State.advance, storeOf_pos]
  have htag : t.x.msgType = s.tagWith d := by rw [hstore, State.advance_x, storeOf_msgType_tagWith d hp]
  rw [decideAt_eq_settleOf, htag, hstore, s.accept_parse d hp]

/-- The frame boundary, register by register (R169). -/
theorem State.boundary_eq (s : State) :
    s.boundary = { s with st := if s.phase = .parse then errorCode .truncatedBuffer else s.st, resValid := true } := by
  rcases hp : s.phase <;> simp [State.boundary, hp, State.raise]

/-- R172 at a Beat. -/
theorem clockStep_beat {s : State} (hv : s.resValid = false) (d : Byte) (l ready : Bool) :
    clockStep s false true d l ready = if l then (s.accept d).boundary else s.accept d := by
  rcases s.phase.parse_or_drain with hp | hp
  · have haccept := decideAt_storeAtOffset d hp rfl
    rw [State.boundary_eq, ← haccept]
    cases l
    · simp [clockStep, hv, hp]
    · simp only [clockStep, hv, hp, ↓reduceIte, Bool.false_eq_true, not_true_eq_false]
      split_ifs <;> rfl
  · rw [s.accept_drain d hp, State.boundary_eq]
    cases l <;> simp [clockStep, hv, hp]

/-- R172 at a Take. -/
theorem clockStep_take {s : State} (hv : s.resValid = true) (valid : Bool) (d : Byte) (l : Bool) :
    clockStep s false valid d l true = s.takeResult := by simp [clockStep, hv, State.takeResult]

/-- R172 at a Hold. -/
theorem clockStep_hold {s : State} {valid ready : Bool}
    (h : s.resValid = true ∧ ready = false ∨ s.resValid = false ∧ valid = false) (d : Byte) (l : Bool) :
    clockStep s false valid d l ready = s := by
  rcases h with ⟨hv, rfl⟩ | ⟨hv, rfl⟩ <;> simp [clockStep, hv]

@[simp] theorem State.accept_inputs (d : Byte) (s : State) : (s.accept d).inputs = s.inputs := by
  rcases s.phase.parse_or_drain with hp | hp
  · simp [s.accept_parse d hp]
  · rw [s.accept_drain d hp]

theorem State.nextEdge_eq {s : State} {ins : List Wires} (h : s.inputs = ins) :
    s.nextEdge = { s with inputs := ins.tail } := by rw [State.nextEdge, h]

/-- Settles O16, by the event of the edge; at a Beat by `clockStep_beat`. -/
theorem stepIsTheSpecsStepFunction : Obligations.StepIsTheSpecsStepFunction := by
  intro s
  rcases he : s.event with _ | _ | ⟨d, l⟩ | _
  case reset =>
    rw [step_eq, classEdge_reset _ he, State.of_event_reset he]
    rfl
  case take =>
    obtain ⟨hr, hv, hready⟩ := State.of_event_take he
    rw [step_eq, classEdge_take _ he, hr, hready, clockStep_take hv]
    rfl
  case beat =>
    obtain ⟨hr, hv, hi, rfl, rfl⟩ := State.of_event_beat he
    rw [step_beat he, hr, hi, clockStep_beat hv, State.nextEdge_eq]
    cases s.wires.inLast <;> simp
  case hold =>
    obtain ⟨hr, hh⟩ := State.of_event_hold he
    rw [step_eq, classEdge_hold _ he, hr, clockStep_hold hh]
    rfl

end Sys2Proof.Machine
end

section
/-! PROOFS for 45_stream_machine.md, part 2: the events of an edge (R160, R161), what Take, Hold and a Beat in DRAIN do
(R168, R170, R171), and the outputs (R174). -/

namespace Sys2Proof.Machine

/-! ### The event of an edge (R160, R161) -/

theorem State.event_eq_reset_iff {s : State} : s.event = .reset ↔ s.wires.rst = true :=
  ⟨State.of_event_reset, State.event_reset⟩

theorem State.event_eq_take_iff {s : State} :
    s.event = .take ↔ s.wires.rst = false ∧ s.resValid = true ∧ s.wires.resReady = true :=
  ⟨State.of_event_take, fun ⟨hr, hv, hready⟩ => State.event_take hr hv hready⟩

theorem State.event_eq_hold_iff {s : State} : s.event = .hold ↔ s.wires.rst = false ∧
    (s.resValid = true ∧ s.wires.resReady = false ∨ s.resValid = false ∧ s.wires.inValid = false) :=
  ⟨State.of_event_hold, fun ⟨hr, h⟩ => State.event_hold hr h⟩

/-- Settles O12. -/
theorem edgeEventFollowsThePriority : Obligations.EdgeEventFollowsThePriority := fun _ =>
  ⟨fun _ _ h => State.wires_cons h, State.wires_nil, State.event_eq_reset_iff, State.event_eq_take_iff,
    fun _ _ => State.event_eq_beat_iff, State.event_eq_hold_iff⟩

theorem State.inReady_eq_true_iff {s : State} : s.inReady = true ↔ s.resValid = false ∧ s.wires.rst = false := by
  simp [State.inReady]

/-- A byte is transferred exactly when it is offered and `in_ready` is 1. -/
theorem State.exists_event_beat_iff {s : State} :
    (∃ d l, s.event = .beat d l) ↔ s.wires.inValid = true ∧ s.inReady = true := by
  rw [State.inReady_eq_true_iff]
  constructor
  · rintro ⟨d, l, he⟩
    obtain ⟨hr, hv, hi, -, -⟩ := State.of_event_beat he
    exact ⟨hi, hv, hr⟩
  · rintro ⟨hi, hv, hr⟩
    exact ⟨_, _, State.event_beat hr hv hi⟩

/-! ### Take and Hold (R170, R171) -/

theorem exec_take {s : State} (he : s.event = .take) (i : Instr) : exec i s =
    .next { s with resValid := false, pos := 0, phase := .parse, st := 0, inputs := s.inputs.tail } := by
  rw [exec_eq, classEdge_take _ he]; rfl

theorem exec_hold {s : State} (he : s.event = .hold) (i : Instr) :
    exec i s = .next { s with inputs := s.inputs.tail } := by
  rw [exec_eq, classEdge_hold _ he]; rfl

/-- Settles O20. -/
theorem takeReopensTheInput : Obligations.TakeReopensTheInput := by
  intro s hr hv hready
  have he := State.event_take hr hv hready
  exact ⟨exec_take he, _, exec_take he _, ⟨rfl, rfl, rfl⟩, fun hr' => State.inReady_eq_true_iff.2 ⟨rfl, hr'⟩⟩

/-- Settles O21. -/
theorem holdChangesNothing : Obligations.HoldChangesNothing := fun _ hr hh =>
  have he := State.event_hold hr hh
  ⟨exec_hold he, exec_hold he _⟩

/-- Settles O13: with a result pending the edge is a Take (`exec_take`) or a Hold (`exec_hold`). -/
theorem bytesMoveOnlyWhenReady : Obligations.BytesMoveOnlyWhenReady := by
  intro s
  refine ⟨State.inReady_eq_true_iff, State.exists_event_beat_iff, fun hv hr hi hheld => ?_⟩
  have hagain := hheld hi (by simp [State.inReady, hv])
  rcases hready : s.wires.resReady
  case false =>
    exact ⟨_, exec_hold (State.event_hold hr (.inl ⟨hv, hready⟩)) _, rfl, rfl, fun _ => rfl, by simp, hagain⟩
  case true =>
    exact ⟨_, exec_take (State.event_take hr hv hready) _, rfl, rfl, by simp, fun _ => rfl, hagain⟩

/-- Settles O22. -/
theorem drainingDiscardsBytes : Obligations.DrainingDiscardsBytes := fun i s _ _ he hp => by
  rw [exec_eq, classEdge_drain _ he hp]

/-! ### The outputs (R174) -/

/-- Byte `k` of a MAC array is on bits `[8k+7 : 8k]` of its port (R26). -/
theorem extractLsb'_macPort (m : Vector Byte 6) (k : Fin 6) : (macPort m).extractLsb' (8 * k.val) 8 = m[k] := by
  apply BitVec.eq_of_getLsbD_eq
  intro i hi
  rw [BitVec.getLsbD_extractLsb', macPort]
  iterate 5 rw [BitVec.getLsbD_append]
  fin_cases k <;> simp (disch := omega) [hi, if_neg, Nat.sub_sub]

/-- Settles O38: the ports are read off the state, the MAC ports by `extractLsb'_macPort`. -/
theorem outputsAreFunctionsOfState : Obligations.OutputsAreFunctionsOfState := by
  intro s
  have hmac (k : Fin 6) := And.intro (extractLsb'_macPort s.x.dstMac k) (extractLsb'_macPort s.x.srcMac k)
  exact ⟨fun _ => ⟨_, _, rfl⟩, rfl, rfl, rfl, rfl, rfl, hmac, rfl, rfl, rfl, rfl, rfl, rfl, rfl, rfl, rfl, rfl, rfl, rfl,
    rfl⟩

end Sys2Proof.Machine
end

section
/-! PROOFS for 45_stream_machine.md, part 3: the offset counter (R163), the frame boundary (R169), the header beats (R162
rows 0 to 16) and the dispatch (R164). -/

namespace Sys2Proof.Machine

/-! ### The offset counter (R163) -/

theorem classEdge_parse_pos {s : State} (c : MessageType) {d : Byte} {l : Bool} (he : s.event = .beat d l)
    (hp : s.phase = .parse) : (classEdge c s).pos = s.pos + 1 := by
  rw [classEdge_parse c he hp]
  cases l <;> simp

/-- Settles O23: below offset 280 (`needsMore_lt`) nothing wraps. -/
theorem offsetCountsParsedBytes : Obligations.OffsetCountsParsedBytes := by
  intro i s d l he
  refine ⟨_, exec_eq i s, fun hp => ⟨classEdge_parse_pos _ he hp, fun hinv => ?_⟩, fun hp => ?_⟩
  · have hlt := needsMore_lt (hinv.parsing hp).2
    rw [classEdge_parse_pos _ he hp, pos_succ_toNat (by omega)]
  · rw [classEdge_drain _ he hp]

/-! ### The frame boundary (R169) -/

theorem beat_withInputs (c : MessageType) (d : Byte) (s : State) (ins : List Wires) :
    State.beat (storeOf c) (settleOf c) d false { s with inputs := ins } =
      { State.beat (storeOf c) (settleOf c) d false s with inputs := ins } := by
  rcases s.phase.parse_or_drain with hp | hp
  · rw [State.beat_parse_more _ _ d hp, State.beat_parse_more _ _ d (by exact hp), storeOf_withInputs]
    exact settleOf_withInputs c (storeOf c d s).advance ins
  · simp [State.beat, hp]

theorem beat_unmarked_keeps (c : MessageType) (d : Byte) (s : State) :
    (State.beat (storeOf c) (settleOf c) d false s).resValid = s.resValid ∧
      (State.beat (storeOf c) (settleOf c) d false s).inputs = s.inputs := by
  rcases s.phase.parse_or_drain with hp | hp <;> simp [State.beat, hp]

/-- Settles O24: a marked beat is the unmarked one (`beat_withInputs`) with the boundary after it
(`State.boundary_eq`). -/
theorem frameBoundaryPostsTheResult : Obligations.FrameBoundaryPostsTheResult := by
  intro i s d he
  have hv := (State.of_event_beat he).2.1
  have he' : State.event { s with inputs := Wires.offer d false :: s.inputs.tail } = .beat d false :=
    State.event_eq_beat_iff.2 ⟨rfl, hv, rfl, rfl, rfl⟩
  obtain ⟨hquiet, hins⟩ := beat_unmarked_keeps i.cls d s
  have hmarked : State.beat (storeOf i.cls) (settleOf i.cls) d true s =
      (State.beat (storeOf i.cls) (settleOf i.cls) d false s).boundary := rfl
  refine ⟨_, _, exec_eq i _, ?quiet, exec_eq i s, ?posts⟩
  case quiet => rw [classEdge_beat _ he', beat_withInputs]; exact hquiet.trans hv
  case posts =>
    rw [classEdge_beat _ he', classEdge_beat _ he, beat_withInputs, hmarked,
      State.nextEdge_eq ((State.boundary_inputs _).trans hins), State.boundary_eq]
    rfl

/-! ### The header beats -/

theorem pos_succ_eq_ofNat {p : BitVec 9} {k : Nat} (h : p.toNat = k) : p + 1 = BitVec.ofNat 9 (k + 1) := by
  rw [pos_eq_ofNat h, BitVec.ofNat_add]; rfl

/-- A beat before the last header byte: one store of format H, one advance, and truncation if it is the last. -/
theorem exec_before_header_end (i : Instr) {s : State} {d : Byte} {l : Bool} {k : Nat} (he : s.event = .beat d l)
    (hp : s.phase = .parse) (hpos : s.pos.toNat = k) (hk : k < 16) :
    exec i s = .next { s with x := headerStore k d s.x, pos := s.pos + 1, st := if l then 1 else s.st,
                              resValid := l, inputs := s.inputs.tail } := by
  have hadv : (storeOf i.cls d s).advance.pos.toNat < 17 := by
    rw [State.advance_pos, storeOf_pos, pos_succ_toNat (by omega)]; omega
  rw [exec_eq, classEdge_stays i.cls he hp (settleOf_header i.cls hadv), storeOf_header i.cls d (by omega), storeHeader,
    hpos]

/-- Settles O27: `exec_before_header_end`, each offset with its row of R162's table. -/
theorem headerBeatsStoreTheirBytes : Obligations.HeaderBeatsStoreTheirBytes := by
  intro i s d l he hp
  have hbeat {k : Nat} (hpos : s.pos.toNat = k) (hk : k < 16) := exec_before_header_end i he hp hpos hk
  refine ⟨fun k hk h => ?dstMac, fun k hk h => ?srcMac, fun h => ?etherHigh, fun h => ?etherLow, fun h => ?msgType,
    fun h => ?dstNode⟩
  case dstMac => rw [hbeat h (by omega), headerStore, if_pos hk]
  case srcMac => rw [hbeat h (by omega), headerStore, if_neg (by omega), if_pos (by omega), Nat.add_sub_cancel_left]
  case etherHigh => rw [hbeat h (by decide), ← setLane_high16]; rfl
  case etherLow => rw [hbeat h (by decide), ← setLane_low16]; rfl
  case msgType => exact hbeat h (by decide)
  case dstNode => exact hbeat h (by decide)

/-! ### The dispatch (R164) -/

/-- Settles O28: at offset 16 the step runs the instruction of `msg_type`, whose header completes. -/
theorem dispatchAtOffsetSeventeen : Obligations.DispatchAtOffsetSeventeen := by
  intro s d l he hp hpos
  have hstep : step s = exec (decodeTag s.x.msgType) s := by
    rw [step_eq_exec, State.tagInEffect_of_beat he, State.tagWith, if_neg (by omega)]
  have hcls := decodeTag_cls s.x.msgType
  rw [hstep]
  refine ⟨fun hc => ?unknown, fun hc => ?noBody, fun hc => ?body⟩
  case unknown =>
    exact exec_stop_at_header_end he hp hpos (k := .unknownMessageType) (by rw [hcls, hc]; rfl) (by decide)
  case noBody =>
    exact exec_stop_at_header_end he hp hpos (settleOf_noBody (by rwa [hcls])) (by decide)
  case body => exact exec_body_at_header_end he hp hpos (by rwa [hcls])

end Sys2Proof.Machine
end

section
/-! PROOFS for 45_stream_machine.md, part 4: the body beats of Soc (R165), Preq and Pres (R166, R167). -/

namespace Sys2Proof.Machine

/-! ### The Soc body (R165) -/

section
variable {s : State} {d : Byte} {l : Bool} (he : s.event = .beat d l) (hp : s.phase = .parse)
include he hp

/-- A beat of a Soc frame before its last byte: one store of the table, one advance, and truncation if it is the last. -/
theorem exec_soc_before_end (hlt : s.pos.toNat < 27 + s.cfg.netTimeBytes) :
    exec .soc s = .next { s with x := socStore s.cfg.netTimeBytes s.pos.toNat d s.x, pos := s.pos + 1,
                                 st := if l then 1 else s.st, resValid := l, inputs := s.inputs.tail } := by
  have hW := netTimeBytes_range s.cfg
  have hsettle : settleOf .soc (storeOf .soc d s).advance = (storeOf .soc d s).advance := by
    refine settleSoc_elsewhere ?_
    rw [State.advance_pos, State.advance_cfg, storeOf_pos, storeOf_cfg, pos_succ_toNat (by omega)]
    omega
  rw [exec_eq]
  exact congrArg _ (classEdge_stays .soc he hp hsettle)

/-- The last byte of a Soc frame completes it. -/
theorem exec_soc_at_end (hpos : s.pos.toNat = 27 + s.cfg.netTimeBytes) :
    exec .soc s = .next { s with x := socStore s.cfg.netTimeBytes s.pos.toNat d s.x, pos := s.pos + 1, st := okCode,
                                 phase := .drain, resValid := l, inputs := s.inputs.tail } := by
  have hW := netTimeBytes_range s.cfg
  have hsettle : settleOf .soc (storeOf .soc d s).advance = (storeOf .soc d s).advance.complete := by
    refine settleSoc_at ?_
    rw [State.advance_pos, State.advance_cfg, storeOf_pos, storeOf_cfg, pos_succ_toNat (by omega)]
    omega
  rw [exec_eq]
  exact congrArg _ (classEdge_decides .soc okCode he hp hsettle)

end

/-- The rows of `net_time` (R162). -/
theorem socStore_netTime {W k : Nat} (hk : k < W) (d : Byte) (x : Fields) :
    socStore W (20 + k) d x = { x with netTime := setLane x.netTime k d } := by
  simp (disch := omega) only [socStore, socTimesStore, ↓if_neg, ↓if_pos, lane, Nat.add_sub_cancel_left]

/-- The rows of `rel_time` (R162). -/
theorem socStore_relTime {W k : Nat} (hk : k < 8) (d : Byte) (x : Fields) :
    socStore W (20 + W + k) d x = { x with relTime := setLane x.relTime k d } := by
  simp (disch := omega) only [socStore, socTimesStore, ↓if_neg, ↓if_pos, lane, Nat.add_sub_cancel_left]

/-- Settles O30: `exec_soc_before_end` and `exec_soc_at_end`, each offset with its row of R162's table. -/
theorem socBodyBeats : Obligations.SocBodyBeats := by
  intro s d l he hp
  have hW := netTimeBytes_range s.cfg
  have hbeat := exec_soc_before_end he hp
  refine ⟨fun h => ?body0, fun h => ?flag1, fun h => ?flag2, fun k hk h => ?netTime, fun k hk h => ?relTime,
    fun h => ?last⟩
  case netTime => rw [hbeat (by omega), h, socStore_netTime hk]
  case relTime => rw [hbeat (by omega), h, socStore_relTime (by omega)]
  case last =>
    rw [exec_soc_at_end he hp h, h, show 27 + s.cfg.netTimeBytes = 20 + s.cfg.netTimeBytes + 7 by omega,
      socStore_relTime (by decide)]
    rfl
  all_goals
    rw [hbeat (by omega), h, pos_succ_eq_ofNat h]
    rfl

/-! ### The size test (R166) -/

theorem prqStore_size_high (d : Byte) (x : Fields) :
    prqStore 23 d x = { x with size := d ++ x.size.extractLsb' 0 8 } := by
  rw [← setLane_high16]; rfl

section
variable {i : Instr} {s : State} {d : Byte} {l : Bool} (hi : i = .preq ∨ i = .pres) (he : s.event = .beat d l)
  (hp : s.phase = .parse)
include hi he hp

/-- A beat of a Preq or Pres frame that settles nothing. -/
theorem exec_prq_stays (hsettle : settlePrq (storePrq d s).advance = (storePrq d s).advance) :
    exec i s = .next { storePrq d s with pos := s.pos + 1, st := if l then 1 else s.st, resValid := l,
                                         inputs := s.inputs.tail } := by
  have hc := isPrq_cls hi
  rw [exec_eq, classEdge_stays i.cls he hp (by rwa [settleOf_prq hc, storeOf_prq hc]), storeOf_prq hc]

/-- A beat of a Preq or Pres frame that decides it with code `k`. -/
theorem exec_prq_decides (k : BitVec 3)
    (hsettle : settlePrq (storePrq d s).advance = { (storePrq d s).advance with st := k, phase := .drain }) :
    exec i s = .next { storePrq d s with pos := s.pos + 1, st := k, phase := .drain, resValid := l,
                                         inputs := s.inputs.tail } := by
  have hc := isPrq_cls hi
  rw [exec_eq, classEdge_decides i.cls k he hp (by rwa [settleOf_prq hc, storeOf_prq hc]), storeOf_prq hc]

end

/-- Settles O32: the three cases of the size test. -/
theorem prqSizeTest : Obligations.PrqSizeTest := by
  intro i s d l sz hi he hp hpos hsz
  have hstore : storePrq d s = { s with x.size := sz } := by
    rw [storePrq_of_lt d (by omega), hpos, prqStore_size_high, hsz]
  have hadv : s.pos + 1 = 24 := pos_succ_eq_ofNat hpos
  have hq : (storePrq d s).advance.pos.toNat = 24 := by rw [State.advance_pos, storePrq_pos, hadv]; rfl
  have hsize : (storePrq d s).advance.x.size = sz := by rw [hstore]; rfl
  refine ⟨fun hlong => ?tooLong, fun hzero => ?empty, fun hpay hle => ?goesOn⟩
  case tooLong =>
    rw [exec_prq_decides hi he hp _ (settlePrq_tooLong hq (by rwa [hsize])), hstore, hadv]
  case empty =>
    have hz : (storePrq d s).advance.x.size.toNat = 0 := by rw [hsize, hzero]; rfl
    rw [exec_prq_decides hi he hp okCode (settlePrq_at (by omega) (by omega)), hstore, hadv]
  case goesOn =>
    have hne : sz.toNat ≠ 0 := fun h => hpay (BitVec.eq_of_toNat_eq h)
    rw [exec_prq_stays hi he hp (settlePrq_elsewhere (by rw [hsize]; omega) (by rw [hsize]; omega)), hstore, hadv]

/-! ### The payload beats (R167) -/

/-- Settles O33: a payload beat completes the frame or leaves it going on. -/
theorem prqPayloadBeats : Obligations.PrqPayloadBeats := by
  intro i s d l hi he hp hge hlt
  have hstore : storePrq d s = { s with payload := s.payload.write (s.pos.toNat - 24) d } := by
    rw [storePrq, prqStore_of_ge hge, payloadStore_of_mem hge hlt]
  have hq : (storePrq d s).advance.pos.toNat = s.pos.toNat + 1 := by
    rw [State.advance_pos, storePrq_pos, pos_succ_toNat (by omega)]
  have hsize : (storePrq d s).advance.x.size = s.x.size := by rw [hstore]; rfl
  have hpast : (storePrq d s).advance.pos.toNat = 24 → (storePrq d s).advance.x.size.toNat ≤ 256 := by omega
  refine ⟨fun hend => ?complete, fun hmore => ?goesOn⟩
  case complete =>
    rw [exec_prq_decides hi he hp okCode (settlePrq_at hpast (by rw [hq, hsize, hend])), hstore]
  case goesOn =>
    rw [exec_prq_stays hi he hp (settlePrq_elsewhere hpast (by rwa [hq, hsize])), hstore]

end Sys2Proof.Machine
end

section
/-! PROOFS for 45_stream_machine.md, part 5: whole frames (R173), the shortest frame (R178) and the frame that never ends
(R177). -/

namespace Sys2Proof.Machine

/-- Settles O44: `run_delivers`, with the outputs `status` and `consumed` read off `st` and `pos`. -/
theorem machineImplementsDecode : Obligations.MachineImplementsDecode := by
  intro s B ins rest hs hn _ hd
  exact run_delivers rest hs hn hd

/-! ### The shortest frame (R178) -/

/-- No wires deliver the empty frame: the last edge offers a byte. -/
theorem not_delivers_nil (ins : List Wires) : ¬Delivers ins [] := fun ⟨_, hoff, hlast⟩ => offered_ne_nil hlast hoff

/-- One marked byte where a frame starts: the boundary comes in an incomplete header (R111, R169). -/
theorem step_one_byte_frame {s : State} {d : Byte} (hs : s.atFrameStart) (he : s.event = .beat d true) :
    ∃ t : State, step s = .next t ∧ t.st = 1 ∧ t.pos = 1 ∧ t.resValid = true ∧ t.result = some .truncatedBuffer := by
  obtain ⟨-, hpos, hp⟩ := hs
  have haccept := s.accept_before_header_end d hp (by simp [hpos])
  have hst : (s.accept d).boundary.nextEdge.st = 1 := by simp [haccept, hp, errorCode]
  have hpos' : (s.accept d).boundary.nextEdge.pos = 1 := by simp [haccept, hpos]
  have hv : (s.accept d).boundary.nextEdge.resValid = true := by simp
  exact ⟨_, step_beat he, hst, hpos', hv, State.result_truncated hv hst⟩

/-- Settles O48: the length test, `not_delivers_nil` and `step_one_byte_frame`. -/
theorem shortestFrameIsOneByte : Obligations.ShortestFrameIsOneByte :=
  ⟨fun _ => decodeFrame_short (by simp), not_delivers_nil, fun _ _ _ hs =>
    step_one_byte_frame hs (State.event_eq_beat_iff.2 ⟨rfl, hs.1, rfl, rfl, rfl⟩)⟩

/-! ### The frame that never ends (R177) -/

/-- Without a mark no edge posts a result. -/
theorem after_unmarked {s : State} {ins : List Wires} (rest : List Wires) (hv : s.resValid = false)
    (h : ∀ w ∈ ins, w.rst = false ∧ w.inLast = false) :
    ∃ t : State, after ins.length { s with inputs := ins ++ rest } = { t with inputs := rest } ∧ t.resValid = false := by
  induction ins generalizing s with
  | nil => exact ⟨s, rfl, hv⟩
  | cons w ins ih =>
    obtain ⟨hr, hl⟩ := h w List.mem_cons_self
    have htail := fun v hv => h v (List.mem_cons_of_mem w hv)
    rw [List.length_cons, Nat.add_comm, after_add, List.cons_append]
    rcases hi : w.inValid
    · rw [edge_idle _ hv hr hi]
      exact ih hv htail
    · rw [edge_offered _ hv hr hi, hl]
      exact ih (by simpa using hv) htail

/-- Settles O49. -/
theorem noResultBeforeTheLastByte : Obligations.NoResultBeforeTheLastByte := by
  intro s ins rest hv h
  obtain ⟨t, hrun, htv⟩ := after_unmarked rest hv h
  exact ⟨_, (run_eq_after _ _).trans (congrArg _ hrun), htv, if_neg (by simp [htv]), rfl⟩

end Sys2Proof.Machine
end

section
/-! PROOFS for 46_reference_encoder.md: `Encode` (R191 to R193) against `Decode` (R110). Of an encoded frame the decoder
examines the bytes before the zero fill (`sentFrame`). A frame that begins with these bytes of a well-formed envelope
decodes to it (`decodeFrame_sentFrame_append`), and every frame that decodes to an envelope is of this form
(`wf_of_decodeFrame_ok`, `sentFrame_of_decodeFrame_ok`). The round trip (R195) follows. -/

namespace Sys2Proof

/-! ### Ranges of a buffer -/

theorem memRead_add (B : List Byte) (o m n : Nat) : memRead B o (m + n) = memRead B o m ++ memRead B (o + m) n := by
  rw [memRead, List.take_add, List.drop_drop]
  rfl

theorem memRead_three {B : List Byte} {o : Nat} (h : o + 3 ≤ B.length) :
    memRead B o 3 = [byteAt B o, byteAt B (o + 1), byteAt B (o + 2)] := by
  rw [memRead_succ (by omega), memRead_succ (by omega), memRead_succ (by omega), memRead_zero]

theorem memRead_from_start (B : List Byte) (n : Nat) : memRead B 0 n = B.take n := rfl

@[simp] theorem memRead_cons_succ (b : Byte) (bs : List Byte) (o n : Nat) :
    memRead (b :: bs) (o + 1) n = memRead bs o n := rfl

theorem memRead_append_right {A B : List Byte} {o n : Nat} (h : A.length ≤ o) :
    memRead (A ++ B) o n = memRead B (o - A.length) n := by
  rw [memRead, List.drop_append, List.drop_of_length_le h, List.nil_append]
  rfl

theorem memRead_append_self {A T : List Byte} {n : Nat} (h : A.length = n) : memRead (A ++ T) 0 n = A := by
  subst h
  exact List.take_left

/-! ### A read is the inverse of its write -/

theorem ofNat_leValue_leBytes {n m : Nat} {v : BitVec n} (h : v.toNat < 256 ^ m) :
    BitVec.ofNat n (leValue (leBytes m v.toNat)) = v := by
  rw [leValue_leBytes, Nat.mod_eq_of_lt h, BitVec.ofNat_toNat, BitVec.setWidth_eq]

theorem leValue_memRead_lt {B : List Byte} {o m : Nat} (h : o + m ≤ B.length) :
    leValue (memRead B o m) < 2 ^ (8 * m) := by
  have hlt := leValue_lt (memRead B o m)
  rwa [memRead_length h, show 256 = 2 ^ 8 from rfl, ← pow_mul] at hlt

/-- A register wide enough for `m` bytes keeps the value read from them. -/
theorem toNat_ofNat_leValue_memRead_of_le {B : List Byte} {o m n : Nat} (h : o + m ≤ B.length) (hm : 8 * m ≤ n) :
    (BitVec.ofNat n (leValue (memRead B o m))).toNat = leValue (memRead B o m) := by
  rw [BitVec.toNat_ofNat, Nat.mod_eq_of_lt]
  exact (leValue_memRead_lt h).trans_le (Nat.pow_le_pow_right (by decide) hm)

theorem leBytes_ofNat_leValue_memRead {B : List Byte} {o m n : Nat} (h : o + m ≤ B.length) (hm : 8 * m ≤ n) :
    leBytes m (BitVec.ofNat n (leValue (memRead B o m))).toNat = memRead B o m := by
  have hinv := leBytes_leValue (memRead B o m)
  rwa [memRead_length h, ← toNat_ofNat_leValue_memRead_of_le h hm] at hinv

theorem beBytes_readBE16 {B : List Byte} {o : Nat} (h : o + 2 ≤ B.length) :
    beBytes 2 (readBE16 B o).toNat = memRead B o 2 := by
  have hlen : (memRead B o 2).reverse.length = 2 := by rw [List.length_reverse, memRead_length h]
  have hlt := leValue_lt (memRead B o 2).reverse
  have hinv := leBytes_leValue (memRead B o 2).reverse
  rw [hlen] at hlt hinv
  rw [readBE16, ← List.reverse_reverse (memRead B o 2), beValue_reverse, BitVec.toNat_ofNat,
    Nat.mod_eq_of_lt (b := 2 ^ 16) hlt, beBytes, hinv]

/-! ### The header (R191) -/

@[simp] theorem encodeHeader_length (h : Header) : (encodeHeader h).length = 17 := by simp [encodeHeader]

theorem macAt_toList {B : List Byte} {o : Nat} (h : o + 6 ≤ B.length) : (macAt B o).toList = memRead B o 6 := by
  rw [memRead_succ (by omega), memRead_succ (by omega), memRead_succ (by omega), memRead_succ (by omega),
    memRead_succ (by omega), memRead_succ (by omega), memRead_zero]
  rfl

theorem encodeHeader_decodeHeader {B : List Byte} (h : 17 ≤ B.length) :
    encodeHeader (decodeHeader B) = memRead B 0 17 := by
  rw [show 17 = 6 + 6 + 2 + 3 from rfl, memRead_add, memRead_add, memRead_add, ← macAt_toList (by omega),
    ← macAt_toList (by omega), ← beBytes_readBE16 (by omega), memRead_three (by omega)]
  rfl

theorem encodeHeader_append_memRead {B : List Byte} {n : Nat} (h : 17 ≤ B.length) :
    encodeHeader (decodeHeader B) ++ memRead B 17 n = B.take (17 + n) := by
  rw [encodeHeader_decodeHeader h, ← memRead_from_start, memRead_add]

theorem byteAt_tag_encodeHeader (h : Header) (T : List Byte) : byteAt (encodeHeader h ++ T) 14 = h.messageType := by
  simp [encodeHeader, byteAt_append_right]

/-- The header is read back, its class by the tag. -/
theorem decodeHeader_encodeHeader {h : Header} (hc : h.cls = classify h.messageType) (T : List Byte) :
    decodeHeader (encodeHeader h ++ T) = h := by
  have hdst : macAt (encodeHeader h ++ T) 0 = h.dstMac := by
    refine (Machine.eq_macAt fun k hk => ?_).symm
    simp [encodeHeader, byteAt_append_left, hk]
  have hsrc : macAt (encodeHeader h ++ T) 6 = h.srcMac := by
    refine (Machine.eq_macAt fun k hk => ?_).symm
    simp [encodeHeader, byteAt_append_left, byteAt_append_right, hk]
  have htype : readBE16 (encodeHeader h ++ T) 12 = h.etherType := by
    have hmem : memRead (encodeHeader h ++ T) 12 2 = beBytes 2 h.etherType.toNat := by
      simp [encodeHeader, memRead_append_right, memRead_append_self]
    rw [readBE16, hmem, beValue_beBytes]
    exact ofNat_toNat_mod 2 h.etherType
  have hdstNode : byteAt (encodeHeader h ++ T) 15 = h.dstNodeId := by simp [encodeHeader, byteAt_append_right]
  have hsrcNode : byteAt (encodeHeader h ++ T) 16 = h.srcNodeId := by simp [encodeHeader, byteAt_append_right]
  rw [decodeHeader, hdst, hsrc, htype, byteAt_tag_encodeHeader, hdstNode, hsrcNode, ← hc]

/-- The bytes behind an encoded header. -/
theorem memRead_encodeHeader_append {h : Header} {T : List Byte} (k n : Nat) :
    memRead (encodeHeader h ++ T) (17 + k) n = memRead T k n := by simp [memRead_append_right]

/-! ### The Soc body (R192) -/

@[simp] theorem encodeSoc_length (c : Config) (b : SocBody) : (encodeSoc c b).length = 11 + c.netTimeBytes := by
  simp [encodeSoc]; omega

theorem encodeSoc_socBodyOf {c : Config} {B : List Byte} (h : 28 + c.netTimeBytes ≤ B.length) :
    encodeSoc c (socBodyOf c B) = memRead B 17 (11 + c.netTimeBytes) := by
  have hW := (Machine.netTimeBytes_range c).2
  rw [show 11 + c.netTimeBytes = 3 + c.netTimeBytes + 8 by omega, memRead_add, memRead_add, ← Nat.add_assoc 17,
    ← leBytes_ofNat_leValue_memRead (n := 64) (m := 8) (by omega) (by decide),
    ← leBytes_ofNat_leValue_memRead (n := 64) (m := c.netTimeBytes) (by omega) (by omega), memRead_three (by omega)]
  rfl

theorem SocBody.netTimeFits_iff {c : Config} {b : SocBody} :
    b.netTimeFits c = true ↔ b.netTime.toNat < 2 ^ (8 * c.netTimeBytes) := decide_eq_true_iff

theorem netTimeFits_socBodyOf {c : Config} {B : List Byte} (h : 28 + c.netTimeBytes ≤ B.length) :
    (socBodyOf c B).netTimeFits c = true :=
  SocBody.netTimeFits_iff.2
    ((BitVec.toNat_ofNat ..).trans_le (Nat.mod_le ..) |>.trans_lt (leValue_memRead_lt (by omega)))

theorem socBodyOf_encodeSoc {c : Config} {b : SocBody} (hfit : b.netTimeFits c = true) (h : Header) (T : List Byte) :
    socBodyOf c (encodeHeader h ++ (encodeSoc c b ++ T)) = b := by
  have hnet : BitVec.ofNat 64 (leValue (leBytes c.netTimeBytes b.netTime.toNat)) = b.netTime :=
    ofNat_leValue_leBytes (by rw [show 256 = 2 ^ 8 from rfl, ← pow_mul]; exact SocBody.netTimeFits_iff.1 hfit)
  have hrel : BitVec.ofNat 64 (leValue (leBytes 8 b.relativeTime.toNat)) = b.relativeTime :=
    ofNat_leValue_leBytes b.relativeTime.isLt
  have hnetAt : memRead (encodeHeader h ++ (encodeSoc c b ++ T)) 20 c.netTimeBytes =
      leBytes c.netTimeBytes b.netTime.toNat := by
    simp [encodeSoc, memRead_append_right, memRead_append_self]
  have hrelAt : memRead (encodeHeader h ++ (encodeSoc c b ++ T)) (20 + c.netTimeBytes) 8 =
      leBytes 8 b.relativeTime.toNat := by
    rw [show 20 + c.netTimeBytes = 17 + (c.netTimeBytes + 3) by omega, memRead_encodeHeader_append]
    simp [encodeSoc, memRead_append_right, memRead_append_self]
  rw [socBodyOf, readLE64, hnetAt, hrelAt, hnet, hrel]
  simp [encodeSoc, byteAt_append_right]

theorem decodeSoc_encodeSoc {c : Config} {b : SocBody} (hfit : b.netTimeFits c = true) (h : Header) (T : List Byte) :
    decodeSoc c (encodeHeader h ++ (encodeSoc c b ++ T)) 17 = .ok (b, 11 + c.netTimeBytes) := by
  rw [decodeSoc_ok (by simp; omega), socBodyOf_encodeSoc hfit]

/-! ### The Preq and Pres bodies (R193) -/

/-- An encoded Preq or Pres body without its zero fill. -/
def sentPrq (b : PrqBody) : List Byte :=
  [b.first, b.flag1, b.flag2, b.pdoVersion, b.reserved2] ++ leBytes 2 b.size.toNat ++ b.payload

theorem encodePrq_eq (b : PrqBody) : encodePrq b = sentPrq b ++ List.replicate (256 - b.size.toNat) 0 := rfl

theorem PrqBody.payloadComplete_iff {b : PrqBody} : b.payloadComplete = true ↔ b.payload.length = b.size.toNat :=
  beq_iff_eq

theorem PrqBody.sizeInRange_iff {b : PrqBody} : b.sizeInRange = true ↔ b.size.toNat ≤ 256 := decide_eq_true_iff

theorem sentPrq_length {b : PrqBody} (h : b.payloadComplete = true) : (sentPrq b).length = 7 + b.size.toNat := by
  simp [sentPrq, PrqBody.payloadComplete_iff.1 h]; omega

theorem sentPrq_prqBodyOf {B : List Byte} (h : 24 + (readLE16 B 22).toNat ≤ B.length) :
    sentPrq (prqBodyOf B) = memRead B 17 (7 + (readLE16 B 22).toNat) := by
  have hfixed : memRead B 17 5 = [byteAt B 17, byteAt B 18, byteAt B 19, byteAt B 20, byteAt B 21] := by
    rw [memRead_succ (by omega), memRead_succ (by omega), memRead_three (by omega)]
  have hsize : leBytes 2 (readLE16 B 22).toNat = memRead B 22 2 :=
    leBytes_ofNat_leValue_memRead (by omega) (by decide)
  rw [memRead_add, show 7 = 5 + 2 from rfl, memRead_add, hfixed, ← hsize]
  rfl

theorem payloadComplete_prqBodyOf {B : List Byte} (h : 24 + (readLE16 B 22).toNat ≤ B.length) :
    (prqBodyOf B).payloadComplete = true :=
  PrqBody.payloadComplete_iff.2 (memRead_length h)

theorem readLE16_sentPrq (h : Header) (b : PrqBody) (T : List Byte) :
    readLE16 (encodeHeader h ++ (sentPrq b ++ T)) 22 = b.size := by
  have hmem : memRead (encodeHeader h ++ (sentPrq b ++ T)) 22 2 = leBytes 2 b.size.toNat := by
    simp [sentPrq, memRead_append_right, memRead_append_self]
  rw [readLE16, hmem, ofNat_leValue_leBytes b.size.isLt]

theorem prqBodyOf_sentPrq {b : PrqBody} (hpay : b.payloadComplete = true) (h : Header) (T : List Byte) :
    prqBodyOf (encodeHeader h ++ (sentPrq b ++ T)) = b := by
  have hpayAt : memRead (encodeHeader h ++ (sentPrq b ++ T)) 24 b.size.toNat = b.payload := by
    simp [sentPrq, memRead_append_right, memRead_append_self, PrqBody.payloadComplete_iff.1 hpay]
  rw [prqBodyOf, readLE16_sentPrq, hpayAt]
  simp [sentPrq, byteAt_append_right]

theorem decodePrq_sentPrq {b : PrqBody} (hsize : b.sizeInRange = true) (hpay : b.payloadComplete = true) (h : Header)
    (T : List Byte) : decodePrq (encodeHeader h ++ (sentPrq b ++ T)) 17 = .ok (b, 7 + b.size.toNat) := by
  have hread := readLE16_sentPrq h b T
  have hfull : 24 + b.size.toNat ≤ (encodeHeader h ++ (sentPrq b ++ T)).length := by
    simp [sentPrq_length hpay]; omega
  rw [decodePrq_ok (by rw [hread]; exact PrqBody.sizeInRange_iff.1 hsize) (by rwa [hread]), hread,
    prqBodyOf_sentPrq hpay]

/-! ### The examined bytes of an encoded frame -/

/-- An encoded body without its zero fill. -/
def sentBody (c : Config) : Body → List Byte
  | .soc b => encodeSoc c b
  | .preq b => sentPrq b
  | .pres b => sentPrq b

/-- An encoded frame without its zero fill: the bytes the decoder examines. -/
def sentFrame (c : Config) (e : Envelope) : List Byte := encodeHeader e.header ++ sentBody c e.body

/-- Only fill follows the examined bytes. -/
theorem encodeFrame_eq_sentFrame_append (c : Config) (e : Envelope) :
    ∃ fill, encodeFrame c e = sentFrame c e ++ fill := by
  obtain ⟨hdr, b | b | b, n⟩ := e
  · exact ⟨[], (List.append_nil _).symm⟩
  · exact ⟨_, (List.append_assoc ..).symm⟩
  · exact ⟨_, (List.append_assoc ..).symm⟩

/-- R196 for each body, the tag by its class. -/
theorem wf_soc_iff {c : Config} {h : Header} {b : SocBody} {n : Nat} :
    Envelope.wf c { header := h, body := .soc b, consumed := n } = true ↔
      (h.cls = .soc ∧ classify h.messageType = .soc) ∧ b.netTimeFits c = true := by
  rw [show classify h.messageType = .soc ↔ _ from classify_eq_cls_iff (i := .soc) (by decide) _]
  simp [Envelope.wf, Envelope.tagMatchesBody, Body.wf, encodeTag]

theorem wf_preq_iff {c : Config} {h : Header} {b : PrqBody} {n : Nat} :
    Envelope.wf c { header := h, body := .preq b, consumed := n } = true ↔
      (h.cls = .preq ∧ classify h.messageType = .preq) ∧ b.sizeInRange = true ∧ b.payloadComplete = true := by
  rw [show classify h.messageType = .preq ↔ _ from classify_eq_cls_iff (i := .preq) (by decide) _]
  simp [Envelope.wf, Envelope.tagMatchesBody, Body.wf, encodeTag]

theorem wf_pres_iff {c : Config} {h : Header} {b : PrqBody} {n : Nat} :
    Envelope.wf c { header := h, body := .pres b, consumed := n } = true ↔
      (h.cls = .pres ∧ classify h.messageType = .pres) ∧ b.sizeInRange = true ∧ b.payloadComplete = true := by
  rw [show classify h.messageType = .pres ↔ _ from classify_eq_cls_iff (i := .pres) (by decide) _]
  simp [Envelope.wf, Envelope.tagMatchesBody, Body.wf, encodeTag]

/-! ### Lengths (R194) -/

/-- How many bytes of an envelope's encoding the decoder examines (R195). -/
def examined (c : Config) : Body → Nat
  | .soc _ => 28 + c.netTimeBytes
  | .preq b => 24 + b.size.toNat
  | .pres b => 24 + b.size.toNat

theorem sentFrame_length {c : Config} {e : Envelope} (h : e.wf c = true) :
    (sentFrame c e).length = examined c e.body := by
  obtain ⟨hdr, b | b | b, n⟩ := e
  · simp [sentFrame, sentBody, examined]; omega
  · obtain ⟨-, -, hpay⟩ := wf_preq_iff.1 h
    simp [sentFrame, sentBody, examined, sentPrq_length hpay]; omega
  · obtain ⟨-, -, hpay⟩ := wf_pres_iff.1 h
    simp [sentFrame, sentBody, examined, sentPrq_length hpay]; omega

/-- The zero fill makes up the capacity that the payload leaves. -/
theorem encodePrq_length {b : PrqBody} (hsize : b.sizeInRange = true) (hpay : b.payloadComplete = true) :
    (encodePrq b).length = 263 := by
  have hle := PrqBody.sizeInRange_iff.1 hsize
  rw [encodePrq_eq, List.length_append, sentPrq_length hpay, List.length_replicate]
  omega

/-- Settles O8: the header is 17 bytes, and each body has its length. -/
theorem encodedFrameLength : Obligations.EncodedFrameLength := by
  rintro c ⟨hdr, b | b | b, n⟩ h
  · simp [encodeFrame, encodeBody]; omega
  · obtain ⟨-, hsize, hpay⟩ := wf_preq_iff.1 h
    simp [encodeFrame, encodeBody, encodePrq_length hsize hpay]
  · obtain ⟨-, hsize, hpay⟩ := wf_pres_iff.1 h
    simp [encodeFrame, encodeBody, encodePrq_length hsize hpay]

/-! ### What a frame decodes to (R195) -/

theorem header_of_decodeFrame_ok {c : Config} {B : List Byte} {e : Envelope} (h : decodeFrame c B = .ok e) :
    17 ≤ B.length := not_lt.1 fun hs => by simp [decodeFrame_short hs] at h

/-- A Preq or Pres frame that decodes passes the three tests of R147. -/
theorem prq_of_decodeFrame_ok {c : Config} {B : List Byte} {e : Envelope} (h : decodeFrame c B = .ok e)
    (hc : Machine.isPrq (classify (byteAt B 14))) :
    (readLE16 B 22).toNat ≤ 256 ∧ 24 + (readLE16 B 22).toNat ≤ B.length := by
  rcases lt_or_ge B.length 24 with hs | hfix
  · simp [decodeFrame_truncated (c := c) (.inr (.inr ⟨hc, .inl hs⟩))] at h
  rcases lt_or_ge 256 (readLE16 B 22).toNat with hbig | hsize
  · simp [decodeFrame_prq_fatal (header_of_decodeFrame_ok h) hc (decodePrq_tooLong hfix hbig), Result.ofError] at h
  rcases lt_or_ge B.length (24 + (readLE16 B 22).toNat) with hs | hfull
  · simp [decodeFrame_truncated (c := c) (.inr (.inr ⟨hc, .inr ⟨hsize, hs⟩⟩))] at h
  exact ⟨hsize, hfull⟩

/-- The frames that decode to an envelope, and the envelope: one case for each body. -/
theorem decodeFrame_ok_cases {c : Config} {B : List Byte} {e : Envelope} (h : decodeFrame c B = .ok e) :
    (classify (byteAt B 14) = .soc ∧ 28 + c.netTimeBytes ≤ B.length ∧
      e = { header := decodeHeader B, body := .soc (socBodyOf c B), consumed := 28 + c.netTimeBytes }) ∨
    ((readLE16 B 22).toNat ≤ 256 ∧ 24 + (readLE16 B 22).toNat ≤ B.length ∧
      (classify (byteAt B 14) = .preq ∧
        e = { header := decodeHeader B, body := .preq (prqBodyOf B), consumed := 24 + (readLE16 B 22).toNat } ∨
      classify (byteAt B 14) = .pres ∧
        e = { header := decodeHeader B, body := .pres (prqBodyOf B), consumed := 24 + (readLE16 B 22).toNat })) := by
  have hlen := header_of_decodeFrame_ok h
  cases hc : classify (byteAt B 14)
  case unknown => simp [decodeFrame_unknown hlen hc] at h
  case nonPowerlink | soa | asnd | amni | aInv =>
    simp [decodeFrame_noBody (c := c) hlen (by simp [Machine.isNoBody, hc])] at h
  case soc =>
    rcases lt_or_ge B.length (28 + c.netTimeBytes) with hs | hfull
    · simp [decodeFrame_truncated (.inr (.inl ⟨hc, hs⟩))] at h
    · rw [decodeFrame_soc_ok hlen hc hfull, Result.ok.injEq] at h
      exact .inl ⟨rfl, hfull, h.symm⟩
  case preq =>
    obtain ⟨hsize, hfull⟩ := prq_of_decodeFrame_ok h (.inl hc)
    rw [decodeFrame_preq_ok hlen hc hsize hfull, Result.ok.injEq] at h
    exact .inr ⟨hsize, hfull, .inl ⟨rfl, h.symm⟩⟩
  case pres =>
    obtain ⟨hsize, hfull⟩ := prq_of_decodeFrame_ok h (.inr hc)
    rw [decodeFrame_pres_ok hlen hc hsize hfull, Result.ok.injEq] at h
    exact .inr ⟨hsize, hfull, .inr ⟨rfl, h.symm⟩⟩

/-- What a frame decodes to is well-formed. -/
theorem wf_of_decodeFrame_ok {c : Config} {B : List Byte} {e : Envelope} (h : decodeFrame c B = .ok e) :
    e.wf c = true := by
  rcases decodeFrame_ok_cases h with ⟨hc, hfull, rfl⟩ | ⟨hsize, hfull, ⟨hc, rfl⟩ | ⟨hc, rfl⟩⟩
  · exact wf_soc_iff.2 ⟨⟨hc, hc⟩, netTimeFits_socBodyOf hfull⟩
  · exact wf_preq_iff.2 ⟨⟨hc, hc⟩, PrqBody.sizeInRange_iff.2 hsize, payloadComplete_prqBodyOf hfull⟩
  · exact wf_pres_iff.2 ⟨⟨hc, hc⟩, PrqBody.sizeInRange_iff.2 hsize, payloadComplete_prqBodyOf hfull⟩

/-- The examined bytes of a frame are those its envelope is sent as. -/
theorem sentFrame_of_decodeFrame_ok {c : Config} {B : List Byte} {e : Envelope} (h : decodeFrame c B = .ok e) :
    sentFrame c e = B.take e.consumed := by
  rcases decodeFrame_ok_cases h with ⟨-, hfull, rfl⟩ | ⟨-, hfull, ⟨-, rfl⟩ | ⟨-, rfl⟩⟩
  · rw [sentFrame, sentBody, encodeSoc_socBodyOf hfull, encodeHeader_append_memRead (by omega), ← Nat.add_assoc]
  · rw [sentFrame, sentBody, sentPrq_prqBodyOf hfull, encodeHeader_append_memRead (by omega), ← Nat.add_assoc]
  · rw [sentFrame, sentBody, sentPrq_prqBodyOf hfull, encodeHeader_append_memRead (by omega), ← Nat.add_assoc]

/-- The examined bytes of a well-formed envelope decode to it, whatever follows them. -/
theorem decodeFrame_sentFrame_append {c : Config} {e : Envelope} (h : e.wf c = true) (T : List Byte) :
    decodeFrame c (sentFrame c e ++ T) = .ok { e with consumed := examined c e.body } := by
  obtain ⟨hdr, b | b | b, n⟩ := e <;> rw [sentFrame, sentBody, List.append_assoc]
  · obtain ⟨⟨hcls, htag⟩, hfit⟩ := wf_soc_iff.1 h
    rw [decodeFrame_soc (by simp) (by rw [byteAt_tag_encodeHeader, htag]), decodeSoc_encodeSoc hfit,
      decodeHeader_encodeHeader (hcls.trans htag.symm), Result.ofBody, ← Nat.add_assoc]
    rfl
  · obtain ⟨⟨hcls, htag⟩, hsize, hpay⟩ := wf_preq_iff.1 h
    rw [decodeFrame_preq (by simp) (by rw [byteAt_tag_encodeHeader, htag]), decodePrq_sentPrq hsize hpay,
      decodeHeader_encodeHeader (hcls.trans htag.symm), Result.ofBody, ← Nat.add_assoc]
    rfl
  · obtain ⟨⟨hcls, htag⟩, hsize, hpay⟩ := wf_pres_iff.1 h
    rw [decodeFrame_pres (by simp) (by rw [byteAt_tag_encodeHeader, htag]), decodePrq_sentPrq hsize hpay,
      decodeHeader_encodeHeader (hcls.trans htag.symm), Result.ofBody, ← Nat.add_assoc]
    rfl

/-- The encoded frame is the examined bytes and its zero fill. -/
theorem encodeFrame_take_examined {c : Config} {e : Envelope} (h : e.wf c = true) :
    (encodeFrame c e).take (examined c e.body) = sentFrame c e := by
  obtain ⟨fill, hfill⟩ := encodeFrame_eq_sentFrame_append c e
  rw [hfill, ← sentFrame_length h, List.take_left]

/-- The count a decoded envelope carries is that of its body. -/
theorem consumed_of_decodeFrame_ok {c : Config} {B : List Byte} {e : Envelope} (h : decodeFrame c B = .ok e) :
    e.consumed = examined c e.body := by
  rcases decodeFrame_ok_cases h with ⟨-, -, rfl⟩ | ⟨-, -, ⟨-, rfl⟩ | ⟨-, rfl⟩⟩ <;> rfl

/-- Settles O9: a frame that begins with the examined bytes decodes to the envelope, the encoded frame among them; and
what a frame decodes to is sent as the bytes the frame begins with. -/
theorem encodedFrameRoundTrip : Obligations.EncodedFrameRoundTrip := by
  refine ⟨fun c e h => ⟨{ e with consumed := examined c e.body }, ?decodes, ⟨rfl, rfl⟩, ?consumed, fun T => ?tail⟩,
    fun c B e h => ⟨wf_of_decodeFrame_ok h, ?again⟩⟩
  case decodes =>
    obtain ⟨fill, hfill⟩ := encodeFrame_eq_sentFrame_append c e
    rw [hfill, decodeFrame_sentFrame_append h]
  case consumed => rfl
  case tail => rw [encodeFrame_take_examined h, decodeFrame_sentFrame_append h]
  case again =>
    rw [← sentFrame_of_decodeFrame_ok h, consumed_of_decodeFrame_ok h,
      encodeFrame_take_examined (wf_of_decodeFrame_ok h)]

end Sys2Proof
end

section
/-! PROOFS for 60_exceptions.md, part 1: the order of the outcomes (R206), and the beat in which an error is entered
(R207). -/

namespace Sys2Proof.Machine

/-! ### The order of the outcomes (R206) -/

/-- The classes that are none of Unknown, without a body, and Soc. -/
theorem isPrq_of_other {c : MessageType} (hunknown : c ≠ .unknown) (hno : ¬isNoBody c) (hsoc : c ≠ .soc) : isPrq c := by
  cases c <;> simp [isPrq, isNoBody] at *

/-- Settles O10: the branches of R206's order, each with the lemma that says what `Decode` answers there. -/
theorem outcomePriority : Obligations.OutcomePriority := by
  intro c B
  split_ifs with h17 hunknown hno hsoc hshort h24 hbig hpay
  · rw [decodeFrame_short h17]; rfl
  · rw [decodeFrame_unknown (not_lt.1 h17) hunknown]; rfl
  · rw [decodeFrame_noBody (not_lt.1 h17) hno]; rfl
  · rw [decodeFrame_truncated (.inr (.inl ⟨hsoc, hshort⟩))]; rfl
  · rw [decodeFrame_soc_ok (not_lt.1 h17) hsoc (not_lt.1 hshort)]; rfl
  · rw [decodeFrame_truncated (.inr (.inr ⟨isPrq_of_other hunknown hno hsoc, .inl h24⟩))]; rfl
  · rw [decodeFrame_prq_fatal (not_lt.1 h17) (isPrq_of_other hunknown hno hsoc) (decodePrq_tooLong (not_lt.1 h24) hbig)]
    rfl
  · rw [decodeFrame_truncated (.inr (.inr ⟨isPrq_of_other hunknown hno hsoc, .inr ⟨not_lt.1 hbig, hpay⟩⟩))]; rfl
  · rcases isPrq_of_other hunknown hno hsoc with hc | hc
    · rw [decodeFrame_preq_ok (not_lt.1 h17) hc (not_lt.1 hbig) (not_lt.1 hpay)]; rfl
    · rw [decodeFrame_pres_ok (not_lt.1 h17) hc (not_lt.1 hbig) (not_lt.1 hpay)]; rfl

/-! ### The entry of an error (R207) -/

/-- The causes of the outcomes that are raised before the frame boundary (R202 to R204), on the state after the store. -/
def hasCause (c : MessageType) (s : State) : ErrorKind → Prop
  | .truncatedBuffer => False
  | .unknownMessageType => s.pos = 17 ∧ c = .unknown
  | .sizeOutOfRange => s.pos = 24 ∧ isPrq c ∧ 256 < s.x.size.toNat
  | .noBodyLayout => s.pos = 17 ∧ isNoBody c

theorem ne_truncatedBuffer_of_hasCause {c : MessageType} {s : State} {k : ErrorKind} (h : hasCause c s k) :
    k ≠ .truncatedBuffer := by rintro rfl; exact h

theorem hasCause_congr {c : MessageType} {s t : State} (hpos : t.pos = s.pos) (hx : t.x = s.x) (k : ErrorKind) :
    hasCause c t k ↔ hasCause c s k := by
  cases k <;> simp only [hasCause, hpos, hx]

theorem settleStop_cases {c : MessageType} {k : ErrorKind} {s : State} (h : s.pos = 17 → hasCause c s k) :
    settleStop k s = s ∨ hasCause c s k ∧ settleStop k s = s.raise k := by
  by_cases h17 : s.pos.toNat = 17
  · exact .inr ⟨h (pos_eq_ofNat h17), settleStop_at k h17⟩
  · exact .inl (settleStop_elsewhere k h17)

theorem settlePrq_cases {c : MessageType} (hc : isPrq c) (s : State) :
    settlePrq s = s ∨ settlePrq s = s.complete ∨
      hasCause c s .sizeOutOfRange ∧ settlePrq s = s.raise .sizeOutOfRange := by
  unfold settlePrq
  split_ifs with hbig
  · exact .inr (.inr ⟨⟨pos_eq_ofNat hbig.1, hc, hbig.2⟩, rfl⟩)
  · exact .inr (.inl rfl)
  · exact .inl rfl

/-- Settling raises an outcome only when its cause is met. -/
theorem settleOf_cases_of_cause (c : MessageType) (s : State) :
    settleOf c s = s ∨ settleOf c s = s.complete ∨ ∃ k, hasCause c s k ∧ settleOf c s = s.raise k := by
  by_cases hprq : isPrq c
  · rw [settleOf_prq hprq]
    exact (settlePrq_cases hprq s).imp_right (Or.imp_right fun h => ⟨_, h⟩)
  by_cases hno : isNoBody c
  · rw [settleOf_noBody hno]
    exact (settleStop_cases (k := .noBodyLayout) fun h17 => ⟨h17, hno⟩).imp_right fun h => .inr ⟨_, h⟩
  by_cases hunknown : c = .unknown
  · subst hunknown
    exact (settleStop_cases (k := .unknownMessageType) fun h17 => ⟨h17, rfl⟩).imp_right fun h => .inr ⟨_, h⟩
  have hsoc : c = .soc := by_contra fun h => hprq (isPrq_of_other hunknown hno h)
  subst hsoc
  by_cases hend : s.pos.toNat = 28 + s.cfg.netTimeBytes
  · exact .inr (.inl (settleSoc_at hend))
  · exact .inl (settleSoc_elsewhere hend)

/-- A beat in PARSE that leaves a code behind: the frame boundary came before the frame was decided, or an outcome was
raised on its cause. -/
theorem classEdge_parse_error {s : State} {c : MessageType} {d : Byte} {l : Bool} (he : s.event = .beat d l)
    (hp : s.phase = .parse) (hst : s.st = 0) (hne : (classEdge c s).st ≠ 0) :
    ((classEdge c s).st = errorCode .truncatedBuffer ∧ (classEdge c s).phase = .parse ∧ l = true ∧
      (classEdge c s).resValid = true) ∨
    ∃ k, hasCause c (classEdge c s) k ∧ (classEdge c s).st = errorCode k ∧ (classEdge c s).phase = .drain := by
  rcases settleOf_cases_of_cause c (storeOf c d s).advance with hs | hs | ⟨k, hk, hs⟩
  · rw [classEdge_stays c he hp hs] at hne ⊢
    obtain rfl : l = true := by by_contra hl; simp [hl, hst] at hne
    exact .inl ⟨rfl, (storeOf_phase c d s).trans hp, rfl, rfl⟩
  · exact absurd (by rw [classEdge_decides c okCode he hp hs]; rfl) hne
  · have hcause : hasCause c (classEdge c s) k := by
      refine (hasCause_congr (s := (storeOf c d s).advance) ?_ (classEdge_parse_stores c he hp).1 k).2 hk
      rw [classEdge_parse_pos c he hp, State.advance_pos, storeOf_pos]
    rw [State.raise_nonfatal (ne_truncatedBuffer_of_hasCause hk)] at hs
    refine .inr ⟨k, hcause, ?_⟩
    rw [classEdge_decides c _ he hp hs]
    exact ⟨rfl, rfl⟩

/-- `st` leaves 0 in a Beat in PARSE only. -/
theorem beat_of_error_entered {s : State} {c : MessageType} (hst : s.st = 0) (hne : (classEdge c s).st ≠ 0) :
    ∃ d l, s.event = .beat d l ∧ s.phase = .parse := by
  rcases he : s.event with _ | _ | ⟨d, l⟩ | _
  case reset => exact absurd (by rw [classEdge_reset c he]; rfl) hne
  case take => exact absurd (by rw [classEdge_take c he]; rfl) hne
  case hold => exact absurd (by rw [classEdge_hold c he]; exact hst) hne
  case beat =>
    rcases s.phase.parse_or_drain with hp | hp
    · exact ⟨d, l, rfl, hp⟩
    · exact absurd (by rw [classEdge_drain c he hp]; exact hst) hne

/-- Settles O26: `beat_of_error_entered` says when, `classEdge_parse_error` how; what is stored is the row of R162's
table. -/
theorem errorsAreEnteredInTheirBeat : Obligations.ErrorsAreEnteredInTheirBeat := by
  intro s t hstep hst hne
  obtain rfl : classEdge (classify s.tagInEffect) s = t := by simpa [step_eq] using hstep
  obtain ⟨d, l, he, hp⟩ := beat_of_error_entered hst hne
  obtain ⟨hx, hpayload⟩ := classEdge_parse_stores (classify s.tagInEffect) he hp
  have htag : (classEdge (classify s.tagInEffect) s).x.msgType = s.tagInEffect := by rw [hx, storeOf_msgType he hp]
  have hstore : storeOf (classify s.tagInEffect) d s = storeAtOffset s.pos.toNat (classify s.x.msgType) d s := by
    rw [State.tagInEffect_of_beat he, storeOf_tagWith, storeAtOffset_eq_storeOf]
  rw [hstore] at hx hpayload
  refine ⟨d, l, he, hp, classEdge_parse_pos _ he hp, ?_, hx, hpayload⟩
  rw [htag]
  rcases classEdge_parse_error he hp hst hne with htrunc | ⟨k, hcause, hcode, hdrain⟩
  · exact .inr (.inr (.inr htrunc))
  cases k
  case truncatedBuffer => exact hcause.elim
  case unknownMessageType => exact .inl ⟨hcode, hdrain, hcause⟩
  case noBodyLayout => exact .inr (.inl ⟨hcode, hdrain, hcause⟩)
  case sizeOutOfRange => exact .inr (.inr (.inl ⟨hcode, hdrain, hcause⟩))

end Sys2Proof.Machine
end

section
/-! PROOFS for 60_exceptions.md, part 2: the Take is the return (R208), after which the next frame is decoded as a frame
of its own (R205, R209). -/

namespace Sys2Proof.Machine

/-! ### The edges from a posted result to the next frame -/

/-- A consumer that waits leaves the posted result as it is (R171). -/
theorem after_wait {t : State} {wait : List Wires} (rest : List Wires) (hv : t.resValid = true)
    (h : ∀ v ∈ wait, v.rst = false ∧ v.resReady = false) :
    after wait.length { t with inputs := wait ++ rest } = { t with inputs := rest } := by
  induction wait with
  | nil => rfl
  | cons v wait ih =>
    obtain ⟨hr, hready⟩ := h v List.mem_cons_self
    have he : State.event { t with inputs := v :: (wait ++ rest) } = .hold := State.event_hold hr (.inl ⟨hv, hready⟩)
    rw [List.length_cons, List.cons_append, after, classEdge_hold _ he]
    exact ih fun u hu => h u (List.mem_cons_of_mem v hu)

/-- The edge of a consumer that takes the posted result (R170). -/
theorem edge_take {t : State} {w : Wires} (rest : List Wires) (hv : t.resValid = true) (hr : w.rst = false)
    (hready : w.resReady = true) :
    after 1 { t with inputs := w :: rest } = { t.takeResult with inputs := rest } := by
  have he : State.event { t with inputs := w :: rest } = .take := State.event_take hr hv hready
  rw [after, classEdge_take _ he]
  rfl

/-- A delivered frame ends with the result of `Decode` posted and `net_time` within its width for the next frame. -/
theorem after_frame {s : State} {A : List Byte} {ins : List Wires} (hs : s.atFrameStart) (hn : s.netTimeInWidth)
    (hd : Delivers ins A) : ∃ t : State,
    (∀ rest, after ins.length { s with inputs := ins ++ rest } = { t with inputs := rest }) ∧
      t.resValid = true ∧ t.netTimeInWidth ∧ t.cfg = s.cfg ∧ t.result = some (decodeFrame s.cfg A) := by
  have hread := State.hasRead_acceptAll hs hn A
  refine ⟨(s.acceptAll A).boundary, fun rest => after_delivers rest hd hs.1, State.boundary_resValid _, ?_, ?_,
    hread.posts.1⟩
  · simpa [State.netTimeInWidth] using hread.net_time
  · rw [State.boundary_cfg, hread.cfg]

/-- Settles O47: the frame (`after_frame`), the wait, the Take, and the next frame (`run_delivers`) from the state the
Take leaves, which is the start of a frame whatever the outcome was. -/
theorem everyOutcomeResumesWithTheNextFrame : Obligations.EveryOutcomeResumesWithTheNextFrame := by
  intro s A B insA wait insB rest w hs hn _ _ hdA hdB hwait hr hready
  obtain ⟨t, hframe, hv, hnet, hcfg, hres⟩ := after_frame hs hn hdA
  have hposted : after (insA.length + wait.length) { s with inputs := insA ++ wait ++ w :: (insB ++ rest) } =
      { t with inputs := w :: (insB ++ rest) } := by
    rw [List.append_assoc, after_add, hframe, after_wait _ hv hwait]
  obtain ⟨u, hrun, -, -, -, hresB, -⟩ := run_delivers (s := t.takeResult) rest ⟨rfl, rfl, rfl⟩ hnet hdB
  refine ⟨{ t with inputs := w :: (insB ++ rest) }, u, ?posted, hres, ?next, ?result⟩
  case posted => rw [run_eq_after, hposted]
  case next => rw [← hrun, run_eq_after, run_eq_after, after_add, after_add, hposted, edge_take _ hv hr hready]
  case result => rw [hresB, State.takeResult_cfg, hcfg]

end Sys2Proof.Machine
end

section
/-! PROOFS for 70_reset_and_hazards.md: the values a Reset writes (R230), after which the frame it interrupted has left no
trace (R231). -/

namespace Sys2Proof.Machine

/-! ### The edge of a Reset (R230) -/

theorem exec_reset {s : State} (he : s.event = .reset) (i : Instr) : exec i s = .next s.applyReset.nextEdge := by
  rw [exec_eq, classEdge_reset _ he]

theorem State.inReady_of_rst {s : State} (h : s.wires.rst = true) : s.inReady = false := by
  simp [State.inReady, h]

/-- Settles O19: under every instruction the edge is a Reset (`exec_reset`), which writes these values. -/
theorem resetEdgeWritesResetValues : Obligations.ResetEdgeWritesResetValues := fun _ hr =>
  have he := State.event_reset hr
  ⟨_, rfl, exec_reset he, exec_reset he _, State.inReady_of_rst hr⟩

/-! ### From a Reset to the next frame (R231) -/

theorem State.applyReset_atFrameStart (s : State) : s.applyReset.atFrameStart := ⟨rfl, rfl, rfl⟩

/-- A Reset clears `net_time`, whatever it held. -/
theorem State.applyReset_netTimeInWidth (s : State) : s.applyReset.netTimeInWidth := Nat.two_pow_pos _

/-- The edge of a Reset, with the wires after it about to arrive. -/
theorem edge_reset (s : State) {w : Wires} (rest : List Wires) (hr : w.rst = true) :
    after 1 { s with inputs := w :: rest } = { s.applyReset with inputs := rest } := by
  have he : State.event { s with inputs := w :: rest } = .reset := State.event_reset hr
  rw [after, classEdge_reset _ he]
  rfl

/-- Settles O46: the Reset leaves the start of a frame (`edge_reset`) with `net_time` within its width, whatever the state
was, and from there the bytes are decoded as a frame of their own (`run_delivers`). -/
theorem resetForgetsTheFrame : Obligations.ResetForgetsTheFrame := by
  intro s w B ins rest hr _ hd
  have hreset := edge_reset s (ins ++ rest) hr
  obtain ⟨t, hrun, -, -, -, hres, -⟩ :=
    run_delivers rest s.applyReset_atFrameStart s.applyReset_netTimeInWidth hd
  refine ⟨{ s.applyReset with inputs := ins ++ rest }, t, ?reset, s.applyReset_atFrameStart, rfl, ?next, hres⟩
  case reset => rw [run_eq_after, hreset]
  case next => rw [← hrun, run_eq_after, run_eq_after, after_add, hreset]

end Sys2Proof.Machine
end
